-- ==== Sys2Proof/Word.lean ====
section
/-! DEFINITION. The word type: a W-bit unsigned value, and the bounds of its value space (00_scope.md R3, R4). -/

namespace Sys2Proof

/-- A `w`-bit unsigned value: the accumulator, the program counter and every memory cell (R3). -/
abbrev Word (w : Nat) := BitVec w

/-- `ARCH_MAXVAL`: the largest value of a register or cell of `w` bits (R4). -/
def archMaxVal (w : Nat) : Nat := 2 ^ w - 1

end Sys2Proof
end

