-- ==== Sys2Proof/Syntax.lean ====
section
/-! DEFINITION. The instruction set: the eight mnemonics and the decoded instruction, one constructor per row of
spec/opcode_table.json (30_encoding.md R54, R56). -/

namespace Sys2Proof

/-- The eight mnemonics, in the order the spec lists them (R2, R54). -/
inductive Opcode where
  | add | and | orr | xor | ldr | str | jmp | jne
  deriving DecidableEq, Repr

/-- A decoded instruction: one of the eight opcodes with its single address operand (R22, R56).
The address is a count of cells, already masked to the address space when the decoder made it (R52);
`Instr.WellFormed` says so, since the width of the address space belongs to the configuration. -/
inductive Instr where
  | add (address : Nat)
  | and (address : Nat)
  | orr (address : Nat)
  | xor (address : Nat)
  | ldr (address : Nat)
  | str (address : Nat)
  | jmp (address : Nat)
  | jne (address : Nat)
  deriving DecidableEq, Repr

/-- The opcode of an instruction (R22: the discriminant). -/
def Instr.opcode : Instr → Opcode
  | .add _ => .add
  | .and _ => .and
  | .orr _ => .orr
  | .xor _ => .xor
  | .ldr _ => .ldr
  | .str _ => .str
  | .jmp _ => .jmp
  | .jne _ => .jne

/-- The address operand of an instruction (R22, R52). -/
def Instr.address : Instr → Nat
  | .add a => a
  | .and a => a
  | .orr a => a
  | .xor a => a
  | .ldr a => a
  | .str a => a
  | .jmp a => a
  | .jne a => a

/-- The instruction with a given opcode and address (R55: every variant is one opcode and one address). -/
def Instr.make : Opcode → Nat → Instr
  | .add, a => .add a
  | .and, a => .and a
  | .orr, a => .orr a
  | .xor, a => .xor a
  | .ldr, a => .ldr a
  | .str, a => .str a
  | .jmp, a => .jmp a
  | .jne, a => .jne a

end Sys2Proof
end

