-- ==== Sys2Proof/Config.lean ====
section
/-! DEFINITION. The configuration record of 00_scope.md §4 (W, A and the opcode tags, with their constraints), the values
the spec takes (D2, D3, D4), and the free values of a state load (R144). -/

namespace Sys2Proof

/-- The implementation parameters (00_scope.md §4, 92_eei_decisions.md "Parameters a model takes"). The three constraints of
the table are carried as proofs, so that no other record can be built. -/
structure Config where
  /-- `W`: the width of the accumulator, the program counter and every cell (R3). -/
  archBits : Nat
  /-- `A`: the width of the address space (R5). -/
  addrBits : Nat
  /-- `opcodeTag`: the opcode cell value of each mnemonic (R8). -/
  opcodeTag : Opcode → Word archBits
  one_le_addrBits : 1 ≤ addrBits
  addrBits_le_archBits : addrBits ≤ archBits
  opcodeTag_injective : ∀ p q, opcodeTag p = opcodeTag q → p = q

/-- The value of one register or one memory cell: `W` bits (R3). -/
abbrev Config.Cell (c : Config) := Word c.archBits

/-- `ADDR_MASK` (R5). -/
def Config.addrMask (c : Config) : Nat := 2 ^ c.addrBits - 1

/-- `MEMORY_SIZE`, written `N` (R5). -/
def Config.memorySize (c : Config) : Nat := 2 ^ c.addrBits

/-- `INSTRUCTION_SIZE`: cells per instruction (R6). -/
def instructionSize : Nat := 2

/-- `MAX_INSTRUCTIONS`: instruction slots in memory, and the capacity of the breakpoint table (R7). -/
def Config.maxInstructions (c : Config) : Nat := c.memorySize / instructionSize

/-- The spec's assignment of the tags 0 to 7 in the listed order (R8, D4). -/
def listedTag : Opcode → Word 8
  | .add => 0
  | .and => 1
  | .orr => 2
  | .xor => 3
  | .ldr => 4
  | .str => 5
  | .jmp => 6
  | .jne => 7

theorem listedTag_injective : ∀ p q, listedTag p = listedTag q → p = q := by
  intro p q
  cases p <;> cases q <;> decide

/-- The configuration the spec takes: `W = 8`, `A = 8`, tags 0 to 7 (00_scope.md §4, D2 to D4).
UNVERIFIED against any binary of the repository; log 1 (unsafe for a claim about such a binary). -/
abbrev Config.taken : Config where
  archBits := 8
  addrBits := 8
  opcodeTag := listedTag
  one_le_addrBits := by decide
  addrBits_le_archBits := by decide
  opcodeTag_injective := listedTag_injective

/-! The free values: after a failed load every architectural field is any value (R144, D22, U9). Each is a constant with no
body, applied to the number of free values drawn so far. Log 6 (safe). -/

/-- The accumulator after the `n`-th failed load. -/
opaque Config.freeAcc (c : Config) (n : Nat) : c.Cell

/-- The program counter after the `n`-th failed load. -/
opaque Config.freePc (c : Config) (n : Nat) : c.Cell

/-- Memory cell `i` after the `n`-th failed load. -/
opaque Config.freeCell (c : Config) (n i : Nat) : c.Cell

/-- The host's cycle count after the `n`-th failed load. -/
opaque Config.freeCycles (n : Nat) : Nat

/-- The status number of a load that succeeds: the spec gives only the failure's, 0 (R144). A free value; log 15 (safe). -/
opaque Config.loadedStatus : Nat

end Sys2Proof
end

