-- ==== Sys2Proof/WellFormed.lean ====
section
/-! DEFINITION. What the decoder promises of an instruction it builds: its address is masked to the address space
(30_encoding.md R52, 10_state.md R22). -/

namespace Sys2Proof

/-- The one check: the address operand names a cell, `address < N` (R52: an unsigned A-bit value). -/
abbrev Instr.WellFormed (c : Config) (i : Instr) : Prop := i.address < c.memorySize

end Sys2Proof
end

