-- ==== Sys2Proof/Decode.lean ====
section
/-! DEFINITION. The decoder and the encoder of 30_encoding.md, over every configuration, and the reading of a row of
spec/opcode_table.json. -/

namespace Sys2Proof

/-- `mask_A(v) = v mod 2^A` (00_scope.md §5, R31, R52). -/
def maskA (c : Config) (v : Nat) : Nat := v % 2 ^ c.addrBits

/-- Why bytes are no instruction. `unknownOpcode` is R55's "no instruction"; `truncated` is raised only by `decodeCells`, for a
list that ends inside an instruction. Both are safe: nothing runs. -/
inductive DecodeError where
  | unknownOpcode (opcodeByte : Nat)
  | truncated
  deriving DecidableEq, Repr

/-- The opcode whose tag is the opcode cell, compared whole (R55, D5). -/
def opcodeOf (c : Config) (opcodeByte : c.Cell) : Option Opcode :=
  [Opcode.add, .and, .orr, .xor, .ldr, .str, .jmp, .jne].find? fun op => c.opcodeTag op == opcodeByte

/-- `Decode(opcode_byte, operand_byte)` (R55, R56): total, and decided by the opcode cell alone. The address is masked when
the instruction is built (R52); operand bits above `A` are ignored (R53). -/
def decode (c : Config) (opcodeByte operandByte : c.Cell) : Except DecodeError Instr :=
  match opcodeOf c opcodeByte with
  | some op => .ok (Instr.make op (maskA c operandByte.toNat))
  | none => .error (.unknownOpcode opcodeByte.toNat)

/-- The decoder on a sequence of cells: it always consumes two (R50, R58) and answers the rest. -/
def decodeCells (c : Config) : List c.Cell → Except DecodeError (Instr × List c.Cell)
  | opcodeByte :: operandByte :: rest => (decode c opcodeByte operandByte).map fun i => (i, rest)
  | _ => .error .truncated

/-- The two cells of an instruction, the opcode cell first (R51). -/
def encode (c : Config) (i : Instr) : c.Cell × c.Cell :=
  (c.opcodeTag i.opcode, BitVec.ofNat c.archBits i.address)

/-- The two cells of a table value: the table writes an instruction as `{mem[pc], mem[pc+1]}`, the opcode cell in bits 15:8
and the operand cell in bits 7:0 (R51). DEDUCED, log 3. -/
def tableCells (w : Nat) : Config.taken.Cell × Config.taken.Cell :=
  (BitVec.ofNat 8 (w / 2 ^ 8), BitVec.ofNat 8 w)

/-- The instruction the decoder reads from a value of spec/opcode_table.json. Every row has 16 bits, the whole instruction, so
`nbits` says nothing more (log 3). -/
def decodeTableWord (_nbits w : Nat) : Option Instr :=
  (decode Config.taken (tableCells w).1 (tableCells w).2).toOption

end Sys2Proof
end

