-- ==== Sys2Proof/Machine/State.lean ====
section
/-! DEFINITION. The state (10_state.md §1): the block's accumulator, program counter and memory, the host's cycle count and
breakpoint table, and the model's own count of free values drawn; the reasons a step stops; the state after reset. -/

namespace Sys2Proof.Machine

/-- The memory array (R18), as the cells that differ from what an unlisted cell reads as, addresses strictly rising
(`Memory.wf`). At W = 8 an entry is a `Host.Cell`. -/
abbrev Memory (c : Config) := List (Nat × c.Cell)

/-- A breakpoint's name: a non-empty string without whitespace (R115, D21), carried as data with its check.
Which characters are whitespace: log 9. -/
structure BreakpointName where
  text : String
  valid : (!text.toList.isEmpty && text.toList.all fun ch => !ch.isWhitespace) = true
  deriving DecidableEq, Repr

/-- A breakpoint: a pair (address, name); the address is stored masked (R115). -/
structure Breakpoint where
  address : Nat
  name : BreakpointName
  deriving DecidableEq, Repr

/-- The machine under one configuration: the block's architectural state (R21: exactly acc, pc and mem), then the host's
state (R112, R115), then the model's own field. -/
structure Engine (c : Config) where
  /-- The accumulator (R10, R11). -/
  acc : c.Cell
  /-- The program counter (R13); it may be odd between steps (R16). -/
  pc : c.Cell
  /-- The memory array (R18). -/
  mem : Memory c
  /-- The host's `total_cycles`: retired instructions since the last load or reset, unbounded (R112, log 10). -/
  totalCycles : Nat
  /-- The host's breakpoint table, in insertion order (R115). -/
  breakpoints : List Breakpoint
  /-- The model's own: how many free values have been drawn by failed loads (R144, log 6). -/
  draws : Nat
  deriving DecidableEq, Repr

/-- The state of the machine in the configuration the spec takes: W = 8, A = 8, tags 0 to 7 (00_scope.md §4). Every field is
a field of `Engine`. -/
structure State extends Engine Config.taken
  deriving DecidableEq, Repr

/-- Why a step stops: the three fault causes of 60_exceptions.md §2. Each carries the info its StepResult records (D8). No
outcome of a fault carries a state: a faulting step changes nothing (R101). -/
inductive Fault where
  /-- ALIGNMENT: raised by the step when `pc` is odd; nothing is fetched (R102). The spec's own fault: safe. -/
  | alignment (pc : Nat)
  /-- DECODE: raised by the step when the opcode cell is none of the eight tags (R103). The spec's own fault: safe. -/
  | decode (pc opcodeByte : Nat)
  /-- FETCH_RANGE: raised by the step when `pc` is even and `pc + 1 >= N`, which needs A < W (R104, D6). Safe. -/
  | fetchRange (pc : Nat)
  deriving DecidableEq, Repr

/-- The numeric fault codes of the spec's table (60_exceptions.md §2, D8). -/
def Fault.code : Fault → Nat
  | .alignment _ => 1
  | .decode _ _ => 2
  | .fetchRange _ => 3

/-- What has no meaning. -/
inductive Refusal where
  /-- Raised by `exec` for an instruction with no meaning yet; no arm raises it. Safe. -/
  | notModelled (mnemonic : String)
  /-- Raised by the host's `read_memory` for an address outside `[0, N)`, never by a step (R110, D13). Safe. -/
  | noSuchCell (address : Nat)
  deriving DecidableEq, Repr

/-- The machine right after power-on and reset (R140): pc and acc are 0, total_cycles is 0, the breakpoint table is as it was
created, empty (R115). Memory lists nothing: the spec leaves its cells any value, and what an unlisted cell reads as is a
DESIGN CHOICE (log 2, unsafe). `draws` is the model's own, 0 a DESIGN CHOICE (log 6). -/
def State.reset : State where
  acc := 0
  pc := 0
  mem := []
  totalCycles := 0
  breakpoints := []
  draws := 0

end Sys2Proof.Machine
end

