-- ==== Sys2Proof/Machine/Ops.lean ====
section
/-! DEFINITION. The memory read/write unit (20_memory.md), the execution contract (40_alu.md R70), and the host's count of
retired instructions (R112). The block has no trap: taking an exception is ending the step with a fault, and there is no
return (R106, R107). -/

namespace Sys2Proof.Machine

/-- `mask_W(v) = v mod 2^W`, on an exact integer (00_scope.md §5). -/
def maskW (c : Config) (v : Int) : c.Cell := BitVec.ofInt c.archBits v

/-! ## Memory as data -/

/-- What a cell that is not listed reads as. The spec says only "any value" (R140, D24). DESIGN CHOICE: 0, log 2 (unsafe). -/
def unlistedCell (c : Config) : c.Cell := 0

/-- The contents of cell `i` (R18). -/
def Memory.read {c : Config} : Memory c → Nat → c.Cell
  | [], _ => unlistedCell c
  | (j, v) :: m, i => if i = j then v else Memory.read m i

/-- The list without an entry for cell `i`. -/
def Memory.erase {c : Config} (m : Memory c) (i : Nat) : Memory c := m.filter fun entry => entry.1 != i

/-- An entry placed before the first higher address. -/
def Memory.insert {c : Config} : Memory c → Nat → c.Cell → Memory c
  | [], i, v => [(i, v)]
  | (j, x) :: m, i, v => if i < j then (i, v) :: (j, x) :: m else (j, x) :: Memory.insert m i v

/-- Cell `i` set to `v`; writing what an unlisted cell reads as removes the entry. -/
def Memory.write {c : Config} (m : Memory c) (i : Nat) (v : c.Cell) : Memory c :=
  if v = unlistedCell c then Memory.erase m i else Memory.insert (Memory.erase m i) i v

/-- The memory whose cells from address `i` upward hold the listed values, the others unlisted. -/
def Memory.ofCellsFrom {c : Config} : Nat → List c.Cell → Memory c
  | _, [] => []
  | i, v :: vs =>
    if v = unlistedCell c then Memory.ofCellsFrom (i + 1) vs else (i, v) :: Memory.ofCellsFrom (i + 1) vs

/-- The values of the `N` cells in ascending address order. -/
def Memory.cells {c : Config} (m : Memory c) : List c.Cell := (List.range c.memorySize).map (Memory.read m)

/-- The canonical form: addresses strictly rising and below `N`, no entry equal to what an unlisted cell reads as. -/
abbrev Memory.wf {c : Config} (m : Memory c) : Prop :=
  m.Pairwise (fun p q => p.1 < q.1) ∧ ∀ entry ∈ m, entry.1 < c.memorySize ∧ entry.2 ≠ unlistedCell c

/-! ## The memory read/write unit -/

/-- `MemRead(addr, 1)`: the cell at the masked address; it never faults and has no side effect (R32). -/
def memRead {c : Config} (m : Memory c) (address : Nat) : c.Cell := Memory.read m (maskA c address)

/-- `MemWrite(addr, 1, v)`: the cell at the masked address becomes `mask_W(v)`; no other cell changes; it never faults
(R33). -/
def memWrite {c : Config} (m : Memory c) (address : Nat) (v : Int) : Memory c :=
  Memory.write m (maskA c address) (maskW c v)

/-! ## The execution contract -/

/-- What an opcode-specific effect leaves, before the final masks: arithmetic inside an effect is exact (R70), so `pc` may be
-2 or -1 (R90) and `acc` may reach `2^(W+1) - 2` (R71). -/
structure Exact (c : Config) where
  acc : Int
  pc : Int
  mem : Memory c
  deriving DecidableEq, Repr

/-- The state as an effect finds it; an effect that writes nothing leaves it so. -/
def Engine.exact {c : Config} (s : Engine c) : Exact c where
  acc := s.acc.toNat
  pc := s.pc.toNat
  mem := s.mem

/-- The execution contract's end: advance the program counter by `INSTRUCTION_SIZE`, for every opcode, then mask both
registers to W bits (R70, R14). The host's state is not the block's to touch (R112, R115). -/
def Engine.commit {c : Config} (s : Engine c) (e : Exact c) : Engine c :=
  { s with acc := maskW c e.acc, pc := maskW c (e.pc + instructionSize), mem := e.mem }

/-- An instruction of the taken configuration retires with the given effect: none faults in execution (R75, R82, R90, R91). -/
def retire (e : Exact Config.taken) (s : State) : Host.Outcome State Fault Refusal :=
  .next { s with toEngine := s.toEngine.commit e }

/-! ## The host's count -/

/-- `total_cycles` after a retired step (R112). -/
def Engine.countRetired {c : Config} (s : Engine c) : Engine c := { s with totalCycles := s.totalCycles + 1 }

/-- `total_cycles` after a retired step, in the taken configuration (R112). -/
def State.countRetired (s : State) : State := { s with toEngine := s.toEngine.countRetired }

/-- An outcome with its next state changed; a fault or a refusal stays. -/
def mapNext {σ τ φ ρ : Type} (f : σ → τ) : Host.Outcome σ φ ρ → Host.Outcome τ φ ρ
  | .next s => .next (f s)
  | .fault r => .fault r
  | .refused r => .refused r

/-- The reset of 70_reset_and_hazards.md R140: pc, acc and total_cycles become 0; memory and the breakpoint table are
unchanged. `draws` is the model's own and goes on counting. -/
def Engine.reset {c : Config} (s : Engine c) : Engine c := { s with acc := 0, pc := 0, totalCycles := 0 }

end Sys2Proof.Machine
end

