-- ==== Sys2Proof/Machine/Operands.lean ====
section
/-! DEFINITION. The operand forms: the memory operand of a data instruction and the target of a jump, both the one direct
address of 30_encoding.md R52 (no base, index, offset or modification: R82, R93). -/

namespace Sys2Proof.Machine

/-- The memory operand: the one cell a data instruction reads (R75, R82). -/
def memoryOperand {c : Config} (s : Engine c) (address : Nat) : c.Cell := memRead s.mem address

/-- What a taken jump writes to `pc` in its effect, `address - INSTRUCTION_SIZE`, exact, so that the advance nets `address`
(R90, R92, C1). -/
def jumpTarget (address : Nat) : Int := (address : Int) - instructionSize

end Sys2Proof.Machine
end

