-- ==== Sys2Proof/Machine/Flags.lean ====
section
/-! DEFINITION. The block has no status flags and no condition codes (10_state.md R20): a carry-out is discarded and nothing
is kept. The one condition an instruction tests is read from the accumulator itself. -/

namespace Sys2Proof.Machine

/-- JNE's condition: the accumulator is not zero, on all W bits (R91, R20). -/
def accNonZero {c : Config} (s : Engine c) : Bool := s.acc != 0

end Sys2Proof.Machine
end

