-- ==== Sys2Proof/Machine/Alu.lean ====
section
/-! DEFINITION. ADD, AND, ORR and XOR (40_alu.md): each effect over every configuration, and each meaning in the taken one. -/

namespace Sys2Proof.Machine

/-- ADD's effect: the exact sum of the accumulator and the operand (R71). -/
def effectAdd {c : Config} (address : Nat) (s : Engine c) : Exact c :=
  { s.exact with acc := (s.acc.toNat : Int) + (memoryOperand s address).toNat }

/-- AND's effect: bitwise and, W bits (R72). -/
def effectAnd {c : Config} (address : Nat) (s : Engine c) : Exact c :=
  { s.exact with acc := (s.acc &&& memoryOperand s address).toNat }

/-- ORR's effect: bitwise inclusive or, W bits (R73). -/
def effectOrr {c : Config} (address : Nat) (s : Engine c) : Exact c :=
  { s.exact with acc := (s.acc ||| memoryOperand s address).toNat }

/-- XOR's effect: bitwise exclusive or, W bits (R74). -/
def effectXor {c : Config} (address : Nat) (s : Engine c) : Exact c :=
  { s.exact with acc := (s.acc ^^^ memoryOperand s address).toNat }

/-- ADD (R71). -/
def execAdd (address : Nat) (s : State) : Host.Outcome State Fault Refusal := retire (effectAdd address s.toEngine) s

/-- AND (R72). -/
def execAnd (address : Nat) (s : State) : Host.Outcome State Fault Refusal := retire (effectAnd address s.toEngine) s

/-- ORR (R73). -/
def execOrr (address : Nat) (s : State) : Host.Outcome State Fault Refusal := retire (effectOrr address s.toEngine) s

/-- XOR (R74). -/
def execXor (address : Nat) (s : State) : Host.Outcome State Fault Refusal := retire (effectXor address s.toEngine) s

end Sys2Proof.Machine
end

