-- ==== Sys2Proof/Machine/Jump.lean ====
section
/-! DEFINITION. JMP and JNE (42_jump.md): each effect over every configuration, and each meaning in the taken one. -/

namespace Sys2Proof.Machine

/-- JMP's effect: the program counter takes the target less the coming advance (R90, R92). -/
def effectJmp {c : Config} (address : Nat) (s : Engine c) : Exact c :=
  { s.exact with pc := jumpTarget address }

/-- JNE's effect: JMP's when the accumulator is not zero, otherwise nothing is written (R91). -/
def effectJne {c : Config} (address : Nat) (s : Engine c) : Exact c :=
  if accNonZero s then { s.exact with pc := jumpTarget address } else s.exact

/-- JMP (R90). -/
def execJmp (address : Nat) (s : State) : Host.Outcome State Fault Refusal := retire (effectJmp address s.toEngine) s

/-- JNE (R91). -/
def execJne (address : Nat) (s : State) : Host.Outcome State Fault Refusal := retire (effectJne address s.toEngine) s

end Sys2Proof.Machine
end

