-- ==== Sys2Proof/Machine/LoadStore.lean ====
section
/-! DEFINITION. LDR and STR (41_load_store.md): each effect over every configuration, and each meaning in the taken one. -/

namespace Sys2Proof.Machine

/-- LDR's effect: the accumulator takes the operand; its old value is not read (R80). -/
def effectLdr {c : Config} (address : Nat) (s : Engine c) : Exact c :=
  { s.exact with acc := (memoryOperand s address).toNat }

/-- STR's effect: the cell takes the accumulator (R81). -/
def effectStr {c : Config} (address : Nat) (s : Engine c) : Exact c :=
  { s.exact with mem := memWrite s.mem address s.acc.toNat }

/-- LDR (R80). -/
def execLdr (address : Nat) (s : State) : Host.Outcome State Fault Refusal := retire (effectLdr address s.toEngine) s

/-- STR (R81). -/
def execStr (address : Nat) (s : State) : Host.Outcome State Fault Refusal := retire (effectStr address s.toEngine) s

end Sys2Proof.Machine
end

