-- ==== Sys2Proof/Machine/Dispatch.lean ====
section
/-! DEFINITION. One arm per instruction of spec/opcode_table.json. -/

namespace Sys2Proof.Machine

def exec (i : Instr) (s : State) : Host.Outcome State Fault Refusal :=
  match i with
  | .add address => Sys2Proof.Machine.execAdd address s
  | .and address => Sys2Proof.Machine.execAnd address s
  | .orr address => Sys2Proof.Machine.execOrr address s
  | .xor address => Sys2Proof.Machine.execXor address s
  | .ldr address => Sys2Proof.Machine.execLdr address s
  | .str address => Sys2Proof.Machine.execStr address s
  | .jmp address => Sys2Proof.Machine.execJmp address s
  | .jne address => Sys2Proof.Machine.execJne address s

end Sys2Proof.Machine
end

