-- ==== Sys2Proof/Machine/Block.lean ====
section
/-! DEFINITION. The block under any configuration: fetching an instruction, executing it, and the step of
60_exceptions.md R100 with its closed result. -/

namespace Sys2Proof.Machine

/-- `StepResult`, the closed type of R100. -/
inductive StepResult (c : Config) where
  | retired (s : Engine c)
  | fault (r : Fault)
  deriving DecidableEq, Repr

/-- `Fetch(pc)`: the opcode cell and the operand cell, with no address mask (R36). -/
def fetch {c : Config} (s : Engine c) : c.Cell × c.Cell :=
  (Memory.read s.mem s.pc.toNat, Memory.read s.mem (s.pc.toNat + 1))

/-- The checks, the fetch and the decoding of R100, in its order: alignment, fetch range, decode (R102 to R105). -/
def fetchDecode {c : Config} (s : Engine c) : Except Fault Instr :=
  if s.pc.toNat % 2 ≠ 0 then .error (.alignment s.pc.toNat)
  else if c.memorySize ≤ s.pc.toNat + 1 then .error (.fetchRange s.pc.toNat)
  else
    match decode c (fetch s).1 (fetch s).2 with
    | .ok i => .ok i
    | .error _ => .error (.decode s.pc.toNat (fetch s).1.toNat)

/-- `Effect(op, address)` of the contract (R70). -/
def effect {c : Config} (i : Instr) (s : Engine c) : Exact c :=
  match i with
  | .add address => effectAdd address s
  | .and address => effectAnd address s
  | .orr address => effectOrr address s
  | .xor address => effectXor address s
  | .ldr address => effectLdr address s
  | .str address => effectStr address s
  | .jmp address => effectJmp address s
  | .jne address => effectJne address s

/-- `Execute(op, address)`: the one sequence of every instruction (R70). -/
def execute {c : Config} (i : Instr) (s : Engine c) : Engine c := s.commit (effect i s)

/-- `Step()` of the block (R100). It does not count cycles: the host does (R111, R112). -/
def blockStep {c : Config} (s : Engine c) : StepResult c :=
  match fetchDecode s with
  | .ok i => .retired (execute i s)
  | .error r => .fault r

end Sys2Proof.Machine
end

