-- ==== Sys2Proof/Machine/Loading.lean ====
section
/-! DEFINITION. Placing an instruction's two cells where the next step fetches (R36), for `State.withFetchWord`. -/

namespace Sys2Proof.Machine

/-- The program counter with its low bit cleared: an even `pc` is unchanged, an odd one could not fetch (R102). Log 4. -/
def evenPc {c : Config} (pc : c.Cell) : c.Cell := BitVec.ofNat c.archBits (pc.toNat - pc.toNat % 2)

/-- The state with an opcode cell and an operand cell stored at the program counter, made even (R36, log 4). -/
def placeCells {c : Config} (s : Engine c) (cells : c.Cell × c.Cell) : Engine c :=
  { s with
    pc := evenPc s.pc
    mem := Memory.write (Memory.write s.mem (evenPc s.pc).toNat cells.1) ((evenPc s.pc).toNat + 1) cells.2 }

end Sys2Proof.Machine
end

