-- ==== Sys2Proof/Machine/Step.lean ====
section
/-! DEFINITION. One step of the machine: the block's step (R100) and the host's count of it (R111, R112). -/

namespace Sys2Proof.Machine

/-- One iteration of the host's loop up to the breakpoint check: `Step()` (R100), and a retired step counted (R111, R112).
A fault changes nothing (R101). Counting inside the step is log 5. -/
def step (s : State) : Host.Outcome State Fault Refusal :=
  match fetchDecode s.toEngine with
  | .ok i => mapNext State.countRetired (exec i s)
  | .error r => .fault r

/-- `s` with the instruction of a table value stored where the next step fetches it (log 3, log 4). -/
def State.withFetchWord (s : State) (_nbits w : Nat) : State :=
  { s with toEngine := placeCells s.toEngine (tableCells w) }

end Sys2Proof.Machine
end

