-- ==== Sys2Proof/Machine/Assembler.lean ====
section
/-! DEFINITION. The assembler line (30_encoding.md R59) and the diagnostic rendering (R60). No rule of execution depends on
either. Lines are lists of characters. -/

namespace Sys2Proof.Machine

/-- A mnemonic as it is written (R54). -/
def mnemonicText : Opcode → List Char
  | .add => ['A', 'D', 'D']
  | .and => ['A', 'N', 'D']
  | .orr => ['O', 'R', 'R']
  | .xor => ['X', 'O', 'R']
  | .ldr => ['L', 'D', 'R']
  | .str => ['S', 'T', 'R']
  | .jmp => ['J', 'M', 'P']
  | .jne => ['J', 'N', 'E']

/-- The value of one decimal digit. -/
def digitValue (ch : Char) : Option Nat := if '0' ≤ ch ∧ ch ≤ '9' then some (ch.toNat - '0'.toNat) else none

/-- Decimal digits read onto an accumulated value. -/
def readDigits (acc : Nat) : List Char → Option Nat
  | [] => some acc
  | ch :: rest => (digitValue ch).bind fun d => readDigits (10 * acc + d) rest

/-- A non-negative integer in decimal: at least one digit (R59). Leading zeros are allowed: DESIGN CHOICE, log 11. -/
def readDecimal : List Char → Option Nat
  | [] => none
  | line => readDigits 0 line

/-- The opcode a mnemonic of three letters names (R59: one of the eight of R54). -/
def opcodeNamed (text : List Char) : Option Opcode :=
  [Opcode.add, .and, .orr, .xor, .ldr, .str, .jmp, .jne].find? fun op => mnemonicText op == text

/-- `MNEMONIC address` assembled into the two cells: the tag, and the address as the operand cell, which must be in
`[0, 2^W)`; the decoder masks it later (R59, R52). One space separates them: DESIGN CHOICE, log 11. -/
def assembleLine (c : Config) : List Char → Option (c.Cell × c.Cell)
  | a :: b :: d :: ' ' :: digits => do
    let op ← opcodeNamed [a, b, d]
    let address ← readDecimal digits
    if address < 2 ^ c.archBits then some (c.opcodeTag op, BitVec.ofNat c.archBits address) else none
  | _ => none

/-- A program's lines, one instruction per line (R59), as the cells they assemble to, in order. -/
def assembleLines (c : Config) (lines : List (List Char)) : Option (List c.Cell) :=
  (lines.mapM (assembleLine c)).map fun pairs => pairs.flatMap fun p => [p.1, p.2]

/-- The diagnostic rendering of an instruction (R60), the address in decimal. -/
def render : Instr → String
  | .add a => "ADD: ACC <- ACC + [" ++ toString a ++ "]"
  | .and a => "AND: ACC <- ACC & [" ++ toString a ++ "]"
  | .orr a => "ORR: ACC <- ACC | [" ++ toString a ++ "]"
  | .xor a => "XOR: ACC <- ACC ^ [" ++ toString a ++ "]"
  | .ldr a => "LDR: ACC <- [" ++ toString a ++ "]"
  | .str a => "STR: [" ++ toString a ++ "] <- ACC"
  | .jmp a => "JMP: PC <- " ++ toString a
  | .jne a => "JNE: PC <- " ++ toString a ++ " if ACC != 0"

/-- An instruction as an assembly line, `MNEMONIC address` in decimal (R59). -/
def assemblyText (i : Instr) : List Char := mnemonicText i.opcode ++ ' ' :: Nat.toDigits 10 i.address

end Sys2Proof.Machine
end

