-- ==== Sys2Proof/Machine/Breakpoints.lean ====
section
/-! DEFINITION. The host's breakpoint table (60_exceptions.md §5): an ordered sequence of (address, name) pairs. No
instruction reads or writes it. -/

namespace Sys2Proof.Machine

/-- Why a breakpoint operation failed (R117, R119, R122): table-full; duplicate-key, by address or by name; not-found. -/
inductive TableError where
  | tableFull
  | duplicateAddress
  | duplicateName
  | notFound
  deriving DecidableEq, Repr

/-- The invariant of the table: at most `MAX_INSTRUCTIONS` entries, each at an address of the space (R115), no two with one
address, no two with one name (R116). -/
abbrev BreakpointsWf (c : Config) (table : List Breakpoint) : Prop :=
  table.length ≤ c.maxInstructions ∧ (∀ b ∈ table, b.address < c.memorySize) ∧
    table.Pairwise fun b b' => b.address ≠ b'.address ∧ b.name ≠ b'.name

/-- `FindByAddress`: the first entry at the masked address (R118). -/
def findByAddress (c : Config) (table : List Breakpoint) (address : Nat) : Option Breakpoint :=
  table.find? fun b => b.address == maskA c address

/-- `FindByName`: the first entry with the name (R118). -/
def findByName (table : List Breakpoint) (name : BreakpointName) : Option Breakpoint :=
  table.find? fun b => b.name == name

/-- `Insert`: the first failure cause in the order table-full, duplicate address, duplicate name, or the pair, masked,
appended at the end (R117). -/
def insertBreakpoint (c : Config) (table : List Breakpoint) (address : Nat) (name : BreakpointName) :
    Except TableError (List Breakpoint) :=
  if c.maxInstructions ≤ table.length then .error .tableFull
  else if (findByAddress c table address).isSome then .error .duplicateAddress
  else if (findByName table name).isSome then .error .duplicateName
  else .ok (table ++ [⟨maskA c address, name⟩])

/-- `DeleteByAddress`: not-found, or the matching entry removed and the later ones moved one place up (R119). -/
def deleteByAddress (c : Config) (table : List Breakpoint) (address : Nat) : Except TableError (List Breakpoint) :=
  if (findByAddress c table address).isSome then .ok (table.eraseP fun b => b.address == maskA c address)
  else .error .notFound

/-- `DeleteByName`: not-found, or the matching entry removed and the later ones moved one place up (R119). -/
def deleteByName (table : List Breakpoint) (name : BreakpointName) : Except TableError (List Breakpoint) :=
  if (findByName table name).isSome then .ok (table.eraseP fun b => b.name == name) else .error .notFound

/-- `BreakpointAt(p)`: some entry's address equals `p` (R120). -/
def breakpointAt (table : List Breakpoint) (p : Nat) : Bool := table.any fun b => b.address == p

end Sys2Proof.Machine
end

