-- ==== Sys2Proof/Machine/Persistence.lean ====
section
/-! DEFINITION. The state load and the state save (70_reset_and_hazards.md R142 to R145). 00_scope.md leaves the file's text
format out ("as file I/O"): a line stands here as what it holds, an integer, a breakpoint, or neither (log 7). -/

namespace Sys2Proof.Machine

/-- One line of a state file (R143): one integer; an address and a name; or anything else (a malformed integer, trailing
garbage, a malformed breakpoint line). -/
inductive FileLine where
  | integer (v : Int)
  | breakpoint (address : Int) (name : BreakpointName)
  | malformed
  deriving DecidableEq, Repr

/-- The values a complete file gives (R143, fields 1 to 5). -/
structure Image (c : Config) where
  totalCycles : Nat
  acc : Nat
  pc : Nat
  cells : List c.Cell
  breakpoints : List Breakpoint
  deriving DecidableEq, Repr

/-- The next line as a non-negative integer below the bound (no bound: `none`), or the failures of R144: a missing field, a
malformed integer, an out-of-range value. -/
def takeNat (bound : Option Nat) : List FileLine → Option (Nat × List FileLine)
  | .integer v :: rest =>
    if 0 ≤ v ∧ (∀ b ∈ bound, v < b) then some (v.toNat, rest) else none
  | _ => none

/-- The next `n` lines as cells, in ascending address order (R143 field 4, D22). -/
def takeCells (c : Config) : Nat → List FileLine → Option (List c.Cell × List FileLine)
  | 0, lines => some ([], lines)
  | n + 1, lines => do
    let (v, rest) ← takeNat (some (archMaxVal c.archBits + 1)) lines
    let (vs, rest) ← takeCells c n rest
    some (BitVec.ofNat c.archBits v :: vs, rest)

/-- The breakpoint lines to the end of the file, inserted in file order with `Insert` (R143 field 5). The raw address is
checked against `[0, N)` before the mask (R144, C8). Any failure of `Insert` fails the load: DEDUCED, log 8. -/
def takeBreakpoints (c : Config) (table : List Breakpoint) : List FileLine → Option (List Breakpoint)
  | [] => some table
  | .breakpoint address name :: rest =>
    if 0 ≤ address ∧ address < c.memorySize then
      match insertBreakpoint c table address.toNat name with
      | .ok table' => takeBreakpoints c table' rest
      | .error _ => none
    else none
  | _ => none

/-- The whole file in the order of R143, or the persistence fault (R144). -/
def parseImage (c : Config) (file : List FileLine) : Option (Image c) := do
  let (totalCycles, rest) ← takeNat none file
  let (acc, rest) ← takeNat (some (archMaxVal c.archBits + 1)) rest
  let (pc, rest) ← takeNat (some c.memorySize) rest
  let (cells, rest) ← takeCells c c.memorySize rest
  let breakpoints ← takeBreakpoints c [] rest
  some { totalCycles, acc, pc, cells, breakpoints }

/-- The status of a load: success, or the persistence fault (R144, R122). -/
inductive LoadStatus where
  | loaded
  | persistenceFault
  deriving DecidableEq, Repr

/-- The number the host reports: the persistence fault is status 0 (R144). Success's number is not stated: a free value,
log 15. -/
def LoadStatus.code : LoadStatus → Nat
  | .persistenceFault => 0
  | .loaded => Config.loadedStatus

/-- The state a complete file gives: every field is the file's (R143). -/
def Engine.ofImage {c : Config} (s : Engine c) (image : Image c) : Engine c where
  acc := BitVec.ofNat c.archBits image.acc
  pc := BitVec.ofNat c.archBits image.pc
  mem := Memory.ofCellsFrom 0 image.cells
  totalCycles := image.totalCycles
  breakpoints := image.breakpoints
  draws := s.draws

/-- The state after a failed load: acc, pc, every cell and total_cycles are any value, the table is empty (R144, D22). The
free values are drawn at the model's counter, which advances (log 6). -/
def Engine.afterFailedLoad {c : Config} (s : Engine c) : Engine c where
  acc := c.freeAcc s.draws
  pc := c.freePc s.draws
  mem := Memory.ofCellsFrom 0 ((List.range c.memorySize).map (c.freeCell s.draws))
  totalCycles := Config.freeCycles s.draws
  breakpoints := []
  draws := s.draws + 1

/-- `load_state`: all of the state at once, from the file's lines (R143), or the persistence fault (R144). -/
def loadState {c : Config} (file : List FileLine) (s : Engine c) : LoadStatus × Engine c :=
  match parseImage c file with
  | some image => (.loaded, s.ofImage image)
  | none => (.persistenceFault, s.afterFailedLoad)

/-- The lines `save_state` writes: the five fields of R143 in order (R145, C5). The breakpoint lines stand in table order: DESIGN
CHOICE, log 16 (unsafe), since R145 gives back the breakpoints only "as an unordered set of address/name pairs". -/
def Engine.fileLines {c : Config} (s : Engine c) : List FileLine :=
  [.integer s.totalCycles, .integer s.acc.toNat, .integer s.pc.toNat] ++
    s.mem.cells.map (fun v => .integer v.toNat) ++
    s.breakpoints.map fun b => .breakpoint b.address b.name

/-- What the file system does with a save: it takes the file, or it cannot open or write it and some file is left (R145,
U13). An input from outside the machine: nothing constrains the file that is left (log 7). -/
inductive SaveAnswer where
  | written
  | failed (left : List FileLine)
  deriving DecidableEq, Repr

/-- `save_state`: whether it succeeded, and the file that stands afterwards; it changes no state (R145). -/
def saveState {c : Config} (answer : SaveAnswer) (s : Engine c) : Bool × List FileLine :=
  match answer with
  | .written => (true, s.fileLines)
  | .failed left => (false, left)

end Sys2Proof.Machine
end

