-- ==== Sys2Proof/Machine/Run.lean ====
section
/-! DEFINITION. The host's loop `run(steps)` (60_exceptions.md R111 to R113). -/

namespace Sys2Proof.Machine

/-- The three results of `run` (R111, D17). -/
inductive RunResult where
  | completed
  | faulted (r : Fault)
  | atBreakpoint
  deriving DecidableEq, Repr

/-- `run(steps)`: steps, each retired one counted, until a fault, a breakpoint at the new `pc`, or no step left (R111). The
breakpoint check follows every retired step, the last one too, and nothing else (R113). -/
def run {c : Config} : Nat → Engine c → RunResult × Engine c
  | 0, s => (.completed, s)
  | n + 1, s =>
    match blockStep s with
    | .fault r => (.faulted r, s)
    | .retired s' =>
      if breakpointAt s'.breakpoints s'.pc.toNat then (.atBreakpoint, s'.countRetired) else run n s'.countRetired

end Sys2Proof.Machine
end

