-- ==== Sys2Proof/Machine/Transactions.lean ====
section
/-! DEFINITION. The host interface of the block (60_exceptions.md §4, D13): the transactions, each complete before the next.
The host writes architectural state only by `run`, a load and the reset (R143, D23). -/

namespace Sys2Proof.Machine

/-- What the host can ask (R110, R111, R117 to R120, R140, R143, R145). -/
inductive Transaction where
  | readAccumulator
  | readProgramCounter
  | readMemory (address : Nat)
  | cycles
  | run (steps : Nat)
  | insert (address : Nat) (name : BreakpointName)
  | findByAddress (address : Nat)
  | findByName (name : BreakpointName)
  | deleteByAddress (address : Nat)
  | deleteByName (name : BreakpointName)
  | count
  | load (file : List FileLine)
  | save (answer : SaveAnswer)
  | reset
  deriving DecidableEq, Repr

/-- What the host is answered. -/
inductive Reply where
  | value (v : Nat)
  | refused (r : Refusal)
  | ran (r : RunResult)
  | done
  | tableFault (e : TableError)
  | found (b : Option Breakpoint)
  | loaded (status : LoadStatus)
  | saved (ok : Bool) (file : List FileLine)
  deriving DecidableEq, Repr

/-- `read_memory(address)`: the cell, or a refusal outside `[0, N)` (R110, D13). -/
def readMemory {c : Config} (s : Engine c) (address : Nat) : Except Refusal c.Cell :=
  if address < c.memorySize then .ok (Memory.read s.mem address) else .error (.noSuchCell address)

/-- The state with the table a breakpoint operation answers; a failure leaves it unchanged (R117, R119). -/
def withTable {c : Config} (s : Engine c) : Except TableError (List Breakpoint) → Reply × Engine c
  | .ok table => (.done, { s with breakpoints := table })
  | .error e => (.tableFault e, s)

/-- One transaction: its reply and the state after it. -/
def transact {c : Config} (t : Transaction) (s : Engine c) : Reply × Engine c :=
  match t with
  | .readAccumulator => (.value s.acc.toNat, s)
  | .readProgramCounter => (.value s.pc.toNat, s)
  | .readMemory address =>
    match readMemory s address with
    | .ok v => (.value v.toNat, s)
    | .error r => (.refused r, s)
  | .cycles => (.value s.totalCycles, s)
  | .run steps => ((.ran (run steps s).1), (run steps s).2)
  | .insert address name => withTable s (insertBreakpoint c s.breakpoints address name)
  | .findByAddress address => (.found (findByAddress c s.breakpoints address), s)
  | .findByName name => (.found (findByName s.breakpoints name), s)
  | .deleteByAddress address => withTable s (deleteByAddress c s.breakpoints address)
  | .deleteByName name => withTable s (deleteByName s.breakpoints name)
  | .count => (.value s.breakpoints.length, s)
  | .load file => (.loaded (loadState file s).1, (loadState file s).2)
  | .save answer => (.saved (saveState answer s).1 (saveState answer s).2, s)
  | .reset => (.done, s.reset)

end Sys2Proof.Machine
end

