-- ==== Sys2Proof/Safety.lean ====
section
/-! DEFINITION. What claims speak of: a valid state (70_reset_and_hazards.md R142), the model's invariant, and the states a
host can bring about. -/

namespace Sys2Proof.Machine

/-- A valid state (R142). The ranges of acc, of the cells and of total_cycles hold by type; the range of pc and the breakpoint
table are the rest. `pc` need not be even. -/
abbrev Engine.Valid {c : Config} (s : Engine c) : Prop := s.pc.toNat < c.memorySize ∧ BreakpointsWf c s.breakpoints

/-- A launch state, from which a claim about a program starts: any valid state (R141, R142; 92_eei_decisions.md, "launch
state"). -/
abbrev Engine.LaunchState {c : Config} (s : Engine c) : Prop := s.Valid

/-- A claim stated as R141 asks: over every launch state, not over the reset state alone. -/
def HoldsAtEveryLaunch {c : Config} (claim : Engine c → Prop) : Prop := ∀ s, s.LaunchState → claim s

/-- The states a reset leaves (R140). They fix `pc` and `acc`, and the host's count, and nothing else: memory and the
breakpoint table are those of the state before (R141). `State.reset` is one of them (log 2). -/
def Engine.IsResetState {c : Config} (s : Engine c) : Prop := ∃ before : Engine c, s = before.reset

/-- The model's invariant: memory in its canonical form, and the table as R115 and R116 say. -/
abbrev Engine.Inv {c : Config} (s : Engine c) : Prop := Memory.wf s.mem ∧ BreakpointsWf c s.breakpoints

/-- The step of this state runs an instruction: it will not fault. -/
def Engine.CanStep {c : Config} (s : Engine c) : Prop := ∃ i, fetchDecode s = .ok i

/-- The states the host can bring about from `s` by transactions (D13). -/
inductive Engine.Reachable {c : Config} (s : Engine c) : Engine c → Prop where
  | start : Engine.Reachable s s
  | next (t : Transaction) {u : Engine c} : Engine.Reachable s u → Engine.Reachable s (transact t u).2

end Sys2Proof.Machine
end

