-- ==== Sys2Proof/Certificates/Slice0/Obligations.lean ====
section
/-! DEFINITION. The statements for the provers, each from the numbered rules of spec/. `c` ranges over every configuration; the
taken one (W = 8, A = 8, tags 0 to 7) is the machine behind `exec` and `step`. -/

open Sys2Proof Sys2Proof.Machine

/-! ## The instructions: each completes, with its result and its frame

The tag values are the spec's assignment (R8, R54, D4; log 1). -/

/-- R71: ADD, in every configuration and on the machine: the sum modulo `2^W`, `pc + 2` modulo `2^W`, nothing else. -/
def Obligations.AddGivesSumModuloWord : Prop :=
  (∀ (c : Config) (s : Engine c) (a : Nat), execute (.add a) s =
    { s with acc := BitVec.ofNat c.archBits (s.acc.toNat + (Memory.read s.mem (maskA c a)).toNat)
             pc := BitVec.ofNat c.archBits (s.pc.toNat + 2) }) ∧
  (∀ (s : State) (a : Nat), exec (.add a) s =
    .next { s with acc := BitVec.ofNat 8 (s.acc.toNat + (Memory.read s.mem (maskA Config.taken a)).toNat)
                   pc := BitVec.ofNat 8 (s.pc.toNat + 2) }) ∧
  Config.taken.opcodeTag .add = 0

/-- R72: AND, in every configuration and on the machine. -/
def Obligations.AndGivesBitwiseAnd : Prop :=
  (∀ (c : Config) (s : Engine c) (a : Nat), execute (.and a) s =
    { s with acc := s.acc &&& Memory.read s.mem (maskA c a), pc := BitVec.ofNat c.archBits (s.pc.toNat + 2) }) ∧
  (∀ (s : State) (a : Nat), exec (.and a) s =
    .next { s with acc := s.acc &&& Memory.read s.mem (maskA Config.taken a)
                   pc := BitVec.ofNat 8 (s.pc.toNat + 2) }) ∧
  Config.taken.opcodeTag .and = 1

/-- R73: ORR, in every configuration and on the machine. -/
def Obligations.OrrGivesBitwiseOr : Prop :=
  (∀ (c : Config) (s : Engine c) (a : Nat), execute (.orr a) s =
    { s with acc := s.acc ||| Memory.read s.mem (maskA c a), pc := BitVec.ofNat c.archBits (s.pc.toNat + 2) }) ∧
  (∀ (s : State) (a : Nat), exec (.orr a) s =
    .next { s with acc := s.acc ||| Memory.read s.mem (maskA Config.taken a)
                   pc := BitVec.ofNat 8 (s.pc.toNat + 2) }) ∧
  Config.taken.opcodeTag .orr = 2

/-- R74: XOR, in every configuration and on the machine. -/
def Obligations.XorGivesBitwiseXor : Prop :=
  (∀ (c : Config) (s : Engine c) (a : Nat), execute (.xor a) s =
    { s with acc := s.acc ^^^ Memory.read s.mem (maskA c a), pc := BitVec.ofNat c.archBits (s.pc.toNat + 2) }) ∧
  (∀ (s : State) (a : Nat), exec (.xor a) s =
    .next { s with acc := s.acc ^^^ Memory.read s.mem (maskA Config.taken a)
                   pc := BitVec.ofNat 8 (s.pc.toNat + 2) }) ∧
  Config.taken.opcodeTag .xor = 3

/-- R80: LDR, in every configuration and on the machine. -/
def Obligations.LdrGivesTheCell : Prop :=
  (∀ (c : Config) (s : Engine c) (a : Nat), execute (.ldr a) s =
    { s with acc := Memory.read s.mem (maskA c a), pc := BitVec.ofNat c.archBits (s.pc.toNat + 2) }) ∧
  (∀ (s : State) (a : Nat), exec (.ldr a) s =
    .next { s with acc := Memory.read s.mem (maskA Config.taken a), pc := BitVec.ofNat 8 (s.pc.toNat + 2) }) ∧
  Config.taken.opcodeTag .ldr = 4

/-- R81: STR, in every configuration and on the machine: the cell at the masked address takes the accumulator, every other cell
reads as before, and only `pc` changes besides. -/
def Obligations.StrStoresAccumulator : Prop :=
  (∀ (c : Config) (s : Engine c) (a : Nat), ∃ m : Memory c,
    execute (.str a) s = { s with mem := m, pc := BitVec.ofNat c.archBits (s.pc.toNat + 2) } ∧
    Memory.read m (maskA c a) = s.acc ∧ ∀ k, k ≠ maskA c a → Memory.read m k = Memory.read s.mem k) ∧
  (∀ (s : State) (a : Nat), ∃ m : Memory Config.taken,
    exec (.str a) s = .next { s with mem := m, pc := BitVec.ofNat 8 (s.pc.toNat + 2) } ∧
    Memory.read m (maskA Config.taken a) = s.acc ∧
    ∀ k, k ≠ maskA Config.taken a → Memory.read m k = Memory.read s.mem k) ∧
  Config.taken.opcodeTag .str = 5

/-- R90: JMP, in every configuration and on the machine: only `pc` changes, to the target; the pc so written is the address
itself, for every address of the space. -/
def Obligations.JmpGoesToAddress : Prop :=
  (∀ (c : Config) (s : Engine c) (a : Nat), execute (.jmp a) s = { s with pc := BitVec.ofNat c.archBits a }) ∧
  (∀ (s : State) (a : Nat), exec (.jmp a) s = .next { s with pc := BitVec.ofNat 8 a }) ∧
  (∀ (c : Config) (a : Nat), a < c.memorySize → (BitVec.ofNat c.archBits a).toNat = a) ∧
  Config.taken.opcodeTag .jmp = 6

/-- R91: JNE, in every configuration and on the machine: the target when the accumulator is not zero, otherwise `pc + 2`; nothing
else changes; the pc written by a taken jump is the address itself, for every address of the space. -/
def Obligations.JneGoesToAddressIfNonZero : Prop :=
  (∀ (c : Config) (s : Engine c) (a : Nat), execute (.jne a) s =
    { s with pc := if s.acc = 0 then BitVec.ofNat c.archBits (s.pc.toNat + 2) else BitVec.ofNat c.archBits a }) ∧
  (∀ (s : State) (a : Nat), exec (.jne a) s =
    .next { s with pc := if s.acc = 0 then BitVec.ofNat 8 (s.pc.toNat + 2) else BitVec.ofNat 8 a }) ∧
  (∀ (c : Config) (a : Nat), a < c.memorySize → (BitVec.ofNat c.archBits a).toNat = a) ∧
  Config.taken.opcodeTag .jne = 7

/-- The corner cases R71 to R74 list: an operand of 0, an operand of all ones, and XOR with the accumulator's own value. -/
def Obligations.AluCornerOperands : Prop :=
  ∀ (c : Config) (s : Engine c) (a : Nat),
    (Memory.read s.mem (maskA c a) = 0 →
      (execute (.add a) s).acc = s.acc ∧ (execute (.and a) s).acc = 0 ∧
      (execute (.orr a) s).acc = s.acc ∧ (execute (.xor a) s).acc = s.acc) ∧
    (Memory.read s.mem (maskA c a) = BitVec.allOnes c.archBits →
      (execute (.add a) s).acc = s.acc - 1 ∧ (execute (.and a) s).acc = s.acc ∧
      (execute (.orr a) s).acc = BitVec.allOnes c.archBits ∧ (execute (.xor a) s).acc = ~~~ s.acc) ∧
    (Memory.read s.mem (maskA c a) = s.acc → (execute (.xor a) s).acc = 0)

/-! ## The program counter and the jumps -/

/-- R14, R15: an instruction that does not jump advances `pc` by 2 modulo `2^W`; at `pc = 2^W - 2` it leaves 0. -/
def Obligations.FallThroughAdvancesModuloWord : Prop :=
  ∀ (c : Config) (s : Engine c) (i : Instr), (∀ a, i ≠ .jmp a) → ((∃ a, i = .jne a) → s.acc = 0) →
    (execute i s).pc.toNat = (s.pc.toNat + 2) % 2 ^ c.archBits ∧
    (s.pc.toNat + 2 = 2 ^ c.archBits → (execute i s).pc = 0)

/-- R92: the net effect of a jump is exact for every address of the space, 0 and 1 included, from every `pc`, although the
effect writes `address - 2`; a taken JNE is JMP, a JNE not taken falls through. -/
def Obligations.JumpNetEffectIsExact : Prop :=
  ∀ (c : Config) (s : Engine c) (a : Nat), a < c.memorySize →
    (effect (.jmp a) s).pc = (a : Int) - 2 ∧ (execute (.jmp a) s).pc.toNat = a ∧
    (s.acc ≠ 0 → execute (.jne a) s = execute (.jmp a) s) ∧
    (s.acc = 0 → (execute (.jne a) s).pc.toNat = (s.pc.toNat + 2) % 2 ^ c.archBits)

/-- R93, R102: a jump to an odd address retires, and the next step raises the alignment fault at that address. -/
def Obligations.JumpToOddAddressFaultsNext : Prop :=
  ∀ (s : State) (a : Nat), a < 256 → a % 2 = 1 →
    (∃ t, exec (.jmp a) s = .next t ∧ step t = .fault (.alignment a)) ∧
    (s.acc ≠ 0 → ∃ t, exec (.jne a) s = .next t ∧ step t = .fault (.alignment a))

/-- R148: at a self-loop every further step leaves `acc`, `pc` and memory unchanged and only `total_cycles` grows. -/
def Obligations.SelfLoopOnlyCounts : Prop :=
  ∀ (c : Config) (s : Engine c) (n : Nat), fetchDecode s = .ok (.jmp s.pc.toNat) →
    breakpointAt s.breakpoints s.pc.toNat = false →
    run n s = (.completed, { s with totalCycles := s.totalCycles + n })

/-- R19, R30: no instruction but STR changes memory. -/
def Obligations.OnlyStrWritesMemory : Prop :=
  ∀ (s t : State) (i : Instr), (∀ a, i ≠ .str a) → exec i s = .next t → t.mem = s.mem

/-- R12: STR, JMP and JNE leave the accumulator; LDR does not read it; JMP does not read it. -/
def Obligations.AccumulatorReadersAndWriters : Prop :=
  ∀ (c : Config) (s : Engine c) (a : Nat) (x : c.Cell),
    (execute (.str a) s).acc = s.acc ∧ (execute (.jmp a) s).acc = s.acc ∧ (execute (.jne a) s).acc = s.acc ∧
    execute (.ldr a) { s with acc := x } = execute (.ldr a) s ∧
    execute (.jmp a) { s with acc := x } = { execute (.jmp a) s with acc := x }

/-! ## The step and its faults -/

/-- R100 with R102 to R105: the checks in their order, and the instruction that runs. -/
def Obligations.BlockStepChecksInOrder : Prop :=
  ∀ (c : Config) (s : Engine c),
    (s.pc.toNat % 2 = 1 → blockStep s = .fault (.alignment s.pc.toNat)) ∧
    (s.pc.toNat % 2 = 0 → c.memorySize ≤ s.pc.toNat + 1 → blockStep s = .fault (.fetchRange s.pc.toNat)) ∧
    (s.pc.toNat % 2 = 0 → s.pc.toNat + 1 < c.memorySize →
      (∀ op, c.opcodeTag op ≠ Memory.read s.mem s.pc.toNat) →
      blockStep s = .fault (.decode s.pc.toNat (Memory.read s.mem s.pc.toNat).toNat)) ∧
    (s.pc.toNat % 2 = 0 → s.pc.toNat + 1 < c.memorySize →
      ∀ op, c.opcodeTag op = Memory.read s.mem s.pc.toNat →
      blockStep s = .retired
        (execute (Instr.make op (maskA c (Memory.read s.mem (s.pc.toNat + 1)).toNat)) s))

/-- When the cells at an even program counter decode to an instruction, it is well formed, and the machine's step is its
execution with the retired instruction counted (R100, R112; the count inside the step is log 5). -/
def Obligations.StepRunsTheDecodedInstruction : Prop :=
  ∀ (s : State) (i : Instr), s.pc.toNat % 2 = 0 →
    decode Config.taken (Memory.read s.mem s.pc.toNat) (Memory.read s.mem (s.pc.toNat + 1)) = .ok i →
    i.WellFormed Config.taken ∧
    ∃ t, exec i s = .next t ∧ t.totalCycles = s.totalCycles ∧
      step s = .next { t with totalCycles := s.totalCycles + 1 }

/-- R102, R103, R105 on the machine: exactly when a step faults and with what, and it is never refused. -/
def Obligations.MachineFaultsExactlyWhen : Prop :=
  ∀ s : State,
    (∀ r, step s = .fault r ↔
      (s.pc.toNat % 2 = 1 ∧ r = .alignment s.pc.toNat) ∨
      (s.pc.toNat % 2 = 0 ∧ 8 ≤ (Memory.read s.mem s.pc.toNat).toNat ∧
        r = .decode s.pc.toNat (Memory.read s.mem s.pc.toNat).toNat)) ∧
    ∀ r, step s ≠ .refused r

/-- R100, R101, R112: the machine's step is the block's step with a retired instruction counted; a fault carries no state. -/
def Obligations.MachineStepIsBlockStepCounted : Prop :=
  ∀ s : State, step s = match blockStep s.toEngine with
    | .retired e => .next { s with toEngine := { e with totalCycles := e.totalCycles + 1 } }
    | .fault r => .fault r

/-- R100, R146: a step runs an instruction exactly when `pc` is even, `pc + 1 < N` and the opcode cell is a tag; then it retires. -/
def Obligations.StepRetiresExactlyWhenReady : Prop :=
  ∀ (c : Config) (s : Engine c),
    (s.CanStep ↔ s.pc.toNat % 2 = 0 ∧ s.pc.toNat + 1 < c.memorySize ∧
      ∃ op, c.opcodeTag op = Memory.read s.mem s.pc.toNat) ∧
    (s.CanStep ↔ ∃ t, blockStep s = .retired t)

/-- R104: with A = W no step raises the fetch-range fault. -/
def Obligations.FullWidthNeverFetchRange : Prop :=
  ∀ (c : Config), c.addrBits = c.archBits → ∀ (s : Engine c) (p : Nat), blockStep s ≠ .fault (.fetchRange p)

/-- R17, R104: with A < W an instruction that falls through at the last slot leaves `pc = N`, and the next step raises the
fetch-range fault there. -/
def Obligations.NarrowAddressSpaceRunsOffTheEnd : Prop :=
  ∀ (c : Config), c.addrBits < c.archBits → ∀ (s : Engine c) (i : Instr), s.pc.toNat + 2 = c.memorySize →
    (∀ a, i ≠ .jmp a) → (∀ a, i ≠ .jne a) →
    (execute i s).pc.toNat = c.memorySize ∧ blockStep (execute i s) = .fault (.fetchRange c.memorySize)

/-- R101: a fault changes nothing and counts nothing, so every further run faults in the same way and leaves the state. -/
def Obligations.FaultRepeatsUnchanged : Prop :=
  ∀ (c : Config) (s : Engine c) (r : Fault), blockStep s = .fault r → ∀ n, run (n + 1) s = (.faulted r, s)

/-- R115, R126: no instruction reads or writes the host's state: changing it before a step changes it after, and nothing else. -/
def Obligations.HostStateIsInvisibleToPrograms : Prop :=
  ∀ (c : Config) (s : Engine c) (n : Nat) (table : List Breakpoint),
    blockStep { s with totalCycles := n, breakpoints := table } = match blockStep s with
      | .retired t => .retired { t with totalCycles := n, breakpoints := table }
      | .fault r => .fault r

/-- R18, R21, R23: a step depends on nothing but acc, pc and what the cells read as. -/
def Obligations.StepDependsOnArchitecturalStateOnly : Prop :=
  ∀ (c : Config) (s t : Engine c), s.acc = t.acc → s.pc = t.pc →
    (∀ k, Memory.read s.mem k = Memory.read t.mem k) →
    match blockStep s, blockStep t with
    | .retired s', .retired t' =>
      s'.acc = t'.acc ∧ s'.pc = t'.pc ∧ ∀ k, Memory.read s'.mem k = Memory.read t'.mem k
    | .fault r, .fault r' => r = r'
    | _, _ => False

/-! ## Encoding -/

/-- R52, R55: in every configuration, decoding the two cells of a well-formed instruction gives it back. -/
def Obligations.DecodeOfEncodeIsTheInstruction : Prop :=
  ∀ (c : Config) (i : Instr), i.WellFormed c → decode c (encode c i).1 (encode c i).2 = .ok i

/-- R52, R53, R56: a pair of cells that decodes gives a well-formed instruction, whose encoding is the pair with the operand masked. -/
def Obligations.EncodeOfDecodeMasksTheOperand : Prop :=
  ∀ (c : Config) (b x : c.Cell) (i : Instr), decode c b x = .ok i →
    i.WellFormed c ∧ encode c i = (b, BitVec.ofNat c.archBits (maskA c x.toNat))

/-- R55 to R57: the decoder refuses exactly the opcode cells that are no tag, by the cell's value and whatever the operand; with
the tags taken, 8 to 255. -/
def Obligations.DecoderRejectsExactlyNonTags : Prop :=
  (∀ (c : Config) (b x : c.Cell),
    (decode c b x = .error (.unknownOpcode b.toNat) ↔ ∀ op, c.opcodeTag op ≠ b) ∧
    ((∃ i, decode c b x = .ok i) ↔ ∃ op, c.opcodeTag op = b)) ∧
  (∀ b x : Config.taken.Cell, (∃ i, decode Config.taken b x = .ok i) ↔ b.toNat < 8)

/-- R53: operand bits above `A` are ignored. -/
def Obligations.OperandBitsAboveAddressIgnored : Prop :=
  ∀ (c : Config) (b x y : c.Cell), x.toNat % 2 ^ c.addrBits = y.toNat % 2 ^ c.addrBits → decode c b x = decode c b y

/-- R50, R58: the decoder consumes exactly two cells of a sequence, and refuses a sequence of fewer. -/
def Obligations.DecoderConsumesTwoCells : Prop :=
  ∀ (c : Config) (cells : List c.Cell),
    (∀ (i : Instr) (rest : List c.Cell), i.WellFormed c → cells = (encode c i).1 :: (encode c i).2 :: rest →
      decodeCells c cells = .ok (i, rest)) ∧
    (cells.length < 2 → decodeCells c cells = .error .truncated) ∧
    (∀ i rest, decodeCells c cells = .ok (i, rest) → cells.length = rest.length + 2)

/-- R54: words of the table written out, one for each instruction, and the first value that is none. -/
def Obligations.TableWordsDecode : Prop :=
  decodeTableWord 16 0b0000000000010100 = some (.add 20) ∧ decodeTableWord 16 0b0000000100010101 = some (.and 21) ∧
  decodeTableWord 16 0b0000001000000111 = some (.orr 7) ∧ decodeTableWord 16 0b0000001100010001 = some (.xor 17) ∧
  decodeTableWord 16 0b0000010000001010 = some (.ldr 10) ∧ decodeTableWord 16 0b0000010100010110 = some (.str 22) ∧
  decodeTableWord 16 0b0000011000001000 = some (.jmp 8) ∧ decodeTableWord 16 0b0000011111111111 = some (.jne 255) ∧
  decodeTableWord 16 0b0000100000000000 = none

/-- The model's own loading of a table value (log 3, log 4): from every state, the very next step runs that instruction, counted
inside the step (log 5). -/
def Obligations.PlacedTableWordRunsNext : Prop :=
  ∀ (s : State) (w : Nat) (i : Instr), decodeTableWord 16 w = some i →
    ∃ t, exec i (s.withFetchWord 16 w) = .next t ∧
      step (s.withFetchWord 16 w) = .next { t with totalCycles := s.totalCycles + 1 }

/-- R59: the assembly line of an instruction, `MNEMONIC address` in decimal, assembles to the tag and the address as the operand
cell, and a decimal address of `2^W` or more is rejected. -/
def Obligations.AssemblyLineGivesTheCells : Prop :=
  ∀ (c : Config) (i : Instr),
    assembleLine c (assemblyText i) = if i.address < 2 ^ c.archBits then some (encode c i) else none

/-! ## Memory -/

/-- R32, R33: a write sets the cell at the masked address to `mask_W` of the value and changes no other cell; a read reads the
cell at the masked address. -/
def Obligations.MemoryWriteThenRead : Prop :=
  ∀ (c : Config) (m : Memory c) (a b : Nat) (v : Int),
    ((memRead (memWrite m a v) b).toNat : Int) =
      if maskA c b = maskA c a then v % 2 ^ c.archBits else ((memRead m b).toNat : Int)

/-- R41: after any writes in order, a cell reads as the most recent write to it, or as it did at first. -/
def Obligations.ReadGivesMostRecentWrite : Prop :=
  ∀ (c : Config) (m : Memory c) (writes : List (Nat × Int)) (k : Nat),
    Memory.read (writes.foldl (fun m w => memWrite m w.1 w.2) m) k =
      match writes.reverse.find? (fun w => maskA c w.1 == k) with
      | some w => maskW c w.2
      | none => Memory.read m k

/-- The model's canonical form (log 2): two canonical memories with the same `N` cells are the same data. -/
def Obligations.CanonicalMemoriesAreEqual : Prop :=
  ∀ (c : Config) (m m' : Memory c), Memory.wf m → Memory.wf m' →
    (∀ k, k < c.memorySize → Memory.read m k = Memory.read m' k) → m = m'

/-- R45: the fetch after a store sees it, in the opcode cell and in the operand cell alike. -/
def Obligations.NextFetchSeesTheStore : Prop :=
  ∀ (c : Config) (s : Engine c) (a : Nat),
    fetch (execute (.str a) s) =
      ((if (execute (.str a) s).pc.toNat = maskA c a then s.acc
        else Memory.read s.mem (execute (.str a) s).pc.toNat),
       (if (execute (.str a) s).pc.toNat + 1 = maskA c a then s.acc
        else Memory.read s.mem ((execute (.str a) s).pc.toNat + 1)))

/-! ## The host's loop and its breakpoints -/

/-- R111 to R113: `run(0)` does nothing; a run ends at a fault with nothing changed, at a breakpoint met by the new `pc` with the
step counted, and otherwise goes on. -/
def Obligations.RunLoopIteration : Prop :=
  ∀ (c : Config) (s : Engine c),
    run 0 s = (.completed, s) ∧
    ∀ n, (∀ r, blockStep s = .fault r → run (n + 1) s = (.faulted r, s)) ∧
      ∀ t, blockStep s = .retired t →
        (breakpointAt s.breakpoints t.pc.toNat = true →
          run (n + 1) s = (.atBreakpoint, { t with totalCycles := s.totalCycles + 1 })) ∧
        (breakpointAt s.breakpoints t.pc.toNat = false →
          run (n + 1) s = run n { t with totalCycles := s.totalCycles + 1 })

/-- R112, R113: how far `total_cycles` grows in a run, by its result, and where a run that stops at a breakpoint stands. -/
def Obligations.RunCountsRetiredInstructions : Prop :=
  ∀ (c : Config) (n : Nat) (s t : Engine c) (result : RunResult), run n s = (result, t) →
    t.breakpoints = s.breakpoints ∧
    match result with
    | .completed => t.totalCycles = s.totalCycles + n
    | .faulted r => s.totalCycles ≤ t.totalCycles ∧ t.totalCycles < s.totalCycles + n ∧ blockStep t = .fault r
    | .atBreakpoint => s.totalCycles < t.totalCycles ∧ t.totalCycles ≤ s.totalCycles + n ∧
        breakpointAt t.breakpoints t.pc.toNat = true

/-- A run in two parts: if the first completes, the second goes on from there; if not, the first is the whole (R111). -/
def Obligations.RunComposes : Prop :=
  ∀ (c : Config) (m n : Nat) (s : Engine c),
    run (m + n) s = if (run m s).1 = .completed then run n (run m s).2 else run m s

/-- With no breakpoint, `run(n)` and `n` steps of the machine are the same: the same fault, or the same state (R111). That the
states agree in `total_cycles` rests on the count inside the step, the model's choice (log 5). -/
def Obligations.RunIsMachineStepsWithoutBreakpoints : Prop :=
  ∀ (n : Nat) (s : State), s.breakpoints = [] →
    match Host.Core.run Sys2Proof.core n s with
    | .next t => run n s.toEngine = (.completed, t.toEngine)
    | .fault r => (run n s.toEngine).1 = .faulted r
    | .refused _ => False

/-- R117: what the transaction `Insert` answers and does, the failure causes in their order; a failure leaves the table, and all
else, unchanged. -/
def Obligations.InsertChecksInOrder : Prop :=
  ∀ (c : Config) (s : Engine c) (a : Nat) (name : BreakpointName),
    (c.maxInstructions ≤ s.breakpoints.length → transact (.insert a name) s = (.tableFault .tableFull, s)) ∧
    (s.breakpoints.length < c.maxInstructions → (∃ b ∈ s.breakpoints, b.address = maskA c a) →
      transact (.insert a name) s = (.tableFault .duplicateAddress, s)) ∧
    (s.breakpoints.length < c.maxInstructions → (∀ b ∈ s.breakpoints, b.address ≠ maskA c a) →
      (∃ b ∈ s.breakpoints, b.name = name) → transact (.insert a name) s = (.tableFault .duplicateName, s)) ∧
    (s.breakpoints.length < c.maxInstructions → (∀ b ∈ s.breakpoints, b.address ≠ maskA c a) →
      (∀ b ∈ s.breakpoints, b.name ≠ name) →
      transact (.insert a name) s = (.done, { s with breakpoints := s.breakpoints ++ [⟨maskA c a, name⟩] }))

/-- R116: an insertion and both deletions keep the table's invariant. -/
def Obligations.BreakpointOperationsKeepTable : Prop :=
  ∀ (c : Config) (table table' : List Breakpoint) (a : Nat) (name : BreakpointName), BreakpointsWf c table →
    (insertBreakpoint c table a name = .ok table' → BreakpointsWf c table') ∧
    (deleteByAddress c table a = .ok table' → BreakpointsWf c table') ∧
    (deleteByName table name = .ok table' → BreakpointsWf c table')

/-- R117, R118, R120, R113: after an insertion, both lookups find the new entry, and every run whose first step retires onto its
address stops there, with that step counted. -/
def Obligations.InsertedBreakpointIsFound : Prop :=
  ∀ (c : Config) (table table' : List Breakpoint) (a : Nat) (name : BreakpointName),
    insertBreakpoint c table a name = .ok table' →
      findByAddress c table' a = some ⟨maskA c a, name⟩ ∧ findByName table' name = some ⟨maskA c a, name⟩ ∧
      breakpointAt table' (maskA c a) = true ∧
      ∀ (s t : Engine c) (n : Nat), s.breakpoints = table' → blockStep s = .retired t → t.pc.toNat = maskA c a →
        run (n + 1) s = (.atBreakpoint, { t with totalCycles := s.totalCycles + 1 })

/-- R118: a lookup answers the one entry at the masked address, or with the name, and otherwise nothing. -/
def Obligations.LookupFindsTheOneEntry : Prop :=
  ∀ (c : Config) (table : List Breakpoint) (a : Nat) (name : BreakpointName), BreakpointsWf c table →
    (∀ b ∈ table, b.address = maskA c a → findByAddress c table a = some b) ∧
    (∀ b ∈ table, b.name = name → findByName table name = some b) ∧
    (findByAddress c table a = none ↔ ∀ b ∈ table, b.address ≠ maskA c a) ∧
    (findByName table name = none ↔ ∀ b ∈ table, b.name ≠ name)

/-- R119: a deletion that finds no entry fails and changes nothing; otherwise it removes the one matching entry and moves the
later ones one place earlier, after which nothing is found there. `DeleteByAddress` compares the masked address. -/
def Obligations.DeletionIsStable : Prop :=
  ∀ (c : Config) (s : Engine c) (a : Nat) (name : BreakpointName), BreakpointsWf c s.breakpoints →
    ((∀ b ∈ s.breakpoints, b.address ≠ maskA c a) → transact (.deleteByAddress a) s = (.tableFault .notFound, s)) ∧
    ((∀ b ∈ s.breakpoints, b.name ≠ name) → transact (.deleteByName name) s = (.tableFault .notFound, s)) ∧
    (∀ before b after, s.breakpoints = before ++ b :: after → b.address = maskA c a →
      transact (.deleteByAddress a) s = (.done, { s with breakpoints := before ++ after }) ∧
      findByAddress c (before ++ after) a = none) ∧
    (∀ before b after, s.breakpoints = before ++ b :: after → b.name = name →
      transact (.deleteByName name) s = (.done, { s with breakpoints := before ++ after }) ∧
      findByName (before ++ after) name = none)

/-- R110, R118, R120, R145: the transactions that only look, their answers, and that none changes the state. -/
def Obligations.ReadTransactionsChangeNothing : Prop :=
  ∀ (c : Config) (s : Engine c) (a : Nat) (name : BreakpointName) (answer : SaveAnswer),
    transact .readAccumulator s = (.value s.acc.toNat, s) ∧
    transact .readProgramCounter s = (.value s.pc.toNat, s) ∧
    transact .cycles s = (.value s.totalCycles, s) ∧
    transact .count s = (.value s.breakpoints.length, s) ∧
    (a < c.memorySize → transact (.readMemory a) s = (.value (Memory.read s.mem a).toNat, s)) ∧
    (c.memorySize ≤ a → transact (.readMemory a) s = (.refused (.noSuchCell a), s)) ∧
    (transact (.findByAddress a) s).2 = s ∧ (transact (.findByName name) s).2 = s ∧ (transact (.save answer) s).2 = s

/-! ## Reset, load and save -/

/-- R140: the reset sets pc, acc and total_cycles to 0 and leaves memory and the breakpoint table. -/
def Obligations.ResetSetsRegistersAndKeepsMemory : Prop :=
  ∀ (c : Config) (s : Engine c),
    (transact .reset s).2.pc = 0 ∧ (transact .reset s).2.acc = 0 ∧ (transact .reset s).2.totalCycles = 0 ∧
    (transact .reset s).2.mem = s.mem ∧ (transact .reset s).2.breakpoints = s.breakpoints

/-- R141: the reset states are the states with `pc`, `acc` and the host's count 0, and any memory and any breakpoint table
beside; so the reset alone does not settle what a program does: one reset state's step retires and another's faults. -/
def Obligations.ResetFixesPcAndAccOnly : Prop :=
  (∀ (c : Config) (s : Engine c), s.IsResetState ↔ s.pc = 0 ∧ s.acc = 0 ∧ s.totalCycles = 0) ∧
  (∀ (c : Config) (m : Memory c) (table : List Breakpoint),
    ∃ s : Engine c, s.IsResetState ∧ s.mem = m ∧ s.breakpoints = table) ∧
  State.reset.toEngine.IsResetState ∧
  ∃ s u : State, s.toEngine.IsResetState ∧ u.toEngine.IsResetState ∧ s.toEngine.LaunchState ∧ u.toEngine.LaunchState ∧
    (∃ t, step s = .next t) ∧ ∃ r, step u = .fault r

/-- R141, R146: a claim over every launch state holds after every load that succeeds, and after a reset from every state with a
well-formed breakpoint table, whatever its memory. -/
def Obligations.LaunchClaimCoversLoadsAndResets : Prop :=
  ∀ (c : Config) (claim : Engine c → Prop), HoldsAtEveryLaunch claim →
    (∀ (s t : Engine c) (file : List FileLine), transact (.load file) s = (.loaded .loaded, t) → claim t) ∧
    (∀ s : Engine c, BreakpointsWf c s.breakpoints → claim (transact .reset s).2)

/-- R144: a file that is too short, or whose first three fields or cells are malformed or out of range, or whose breakpoint lines
are malformed, out of range or duplicate an address, fails to load. -/
def Obligations.LoadRejectsBadFiles : Prop :=
  ∀ (c : Config) (s : Engine c) (file : List FileLine),
    (file.length < 3 + c.memorySize → (loadState file s).1 = .persistenceFault) ∧
    (∀ k, k < 3 + c.memorySize → (∀ v : Int, 0 ≤ v → file[k]? ≠ some (.integer v)) →
      (loadState file s).1 = .persistenceFault) ∧
    (∀ v : Int, file[1]? = some (.integer v) → (archMaxVal c.archBits : Int) < v →
      (loadState file s).1 = .persistenceFault) ∧
    (∀ v : Int, file[2]? = some (.integer v) → (c.memorySize : Int) ≤ v →
      (loadState file s).1 = .persistenceFault) ∧
    (∀ (k : Nat) (v : Int), 3 ≤ k → k < 3 + c.memorySize → file[k]? = some (.integer v) →
      (archMaxVal c.archBits : Int) < v → (loadState file s).1 = .persistenceFault) ∧
    (∀ k line, 3 + c.memorySize ≤ k → file[k]? = some line →
      (∀ (address : Int) (name : BreakpointName), 0 ≤ address → address < c.memorySize →
        line ≠ .breakpoint address name) → (loadState file s).1 = .persistenceFault) ∧
    (∀ (j k : Nat) (address : Int) (name name' : BreakpointName), 3 + c.memorySize ≤ j → j < k →
      file[j]? = some (.breakpoint address name) → file[k]? = some (.breakpoint address name') →
      (loadState file s).1 = .persistenceFault)

/-- R143, R142: a load that succeeds gives a valid state whose fields are the file's values. -/
def Obligations.LoadedStateIsValidAndTheFiles : Prop :=
  ∀ (c : Config) (s t : Engine c) (file : List FileLine), loadState file s = (.loaded, t) →
    t.Valid ∧ Memory.wf t.mem ∧
    file[0]? = some (.integer t.totalCycles) ∧ file[1]? = some (.integer t.acc.toNat) ∧
    file[2]? = some (.integer t.pc.toNat) ∧
    (∀ k, k < c.memorySize → file[3 + k]? = some (.integer (Memory.read t.mem k).toNat)) ∧
    file.drop (3 + c.memorySize) = t.breakpoints.map fun b => .breakpoint b.address b.name

/-- R121, R144: a load that does not succeed reports status 0 and leaves the table empty and memory in canonical form; acc, pc, the cells and total_cycles are
the model's free values, of which nothing is said. -/
def Obligations.FailedLoadReportsZeroAndEmptiesTable : Prop :=
  ∀ (c : Config) (s t : Engine c) (file : List FileLine) (status : LoadStatus), loadState file s = (status, t) →
    status ≠ .loaded → status.code = 0 ∧ t.breakpoints = [] ∧ Memory.wf t.mem ∧ t.draws = s.draws + 1

/-- R145: a save and a load into any engine reproduce acc, pc, total_cycles, every cell and the breakpoints, for a valid state
in canonical form. R145 gives back the breakpoints as an unordered set; that their order comes back too rests on the order a
save writes them in, the model's choice (log 16). -/
def Obligations.SaveThenLoadReproducesState : Prop :=
  ∀ (c : Config) (s fresh : Engine c), s.Valid → Memory.wf s.mem →
    loadState (saveState .written s).2 fresh = (.loaded, { s with draws := fresh.draws })

/-! ## Invariants -/

/-- The state after reset is valid and meets the invariant (R140, R142). That its memory lists nothing is the model's choice
(log 2). -/
def Obligations.ResetStateMeetsInvariant : Prop :=
  State.reset.toEngine.Inv ∧ State.reset.toEngine.Valid ∧
    State.reset.acc = 0 ∧ State.reset.pc = 0 ∧ State.reset.totalCycles = 0

/-- Every step of the machine keeps the invariant: memory canonical and inside the address space, the breakpoint table as R115
and R116 say, and the table itself (R19, R33, R116). The growth of `total_cycles` rests on the count inside the step, the
model's choice (log 5). -/
def Obligations.EveryStepKeepsInvariant : Prop :=
  ∀ s t : State, s.toEngine.Inv → step s = .next t →
    t.toEngine.Inv ∧ t.breakpoints = s.breakpoints ∧ t.totalCycles = s.totalCycles + 1

/-- Every transaction of the host keeps the invariant, in every configuration, a failed load and a run of any length among them. -/
def Obligations.EveryTransactionKeepsInvariant : Prop :=
  ∀ (c : Config) (s : Engine c) (t : Transaction), s.Inv → (transact t s).2.Inv

/-- So every state the host can bring about from one that meets the invariant meets it. -/
def Obligations.ReachableStatesMeetInvariant : Prop :=
  ∀ (c : Config) (s u : Engine c), s.Inv → Engine.Reachable s u → u.Inv

/-- R142: every retired step keeps a valid state valid when A = W. -/
def Obligations.RetiredStepKeepsStateValid : Prop :=
  ∀ (c : Config), c.addrBits = c.archBits → ∀ s t : Engine c, s.Valid → blockStep s = .retired t → t.Valid
end

