-- ==== Sys2Proof/Laws/State.lean ====
section
/-! SUPPORT. One lemma per field per update of the state, true by definition, so that no later proof unfolds a record. -/

namespace Sys2Proof.Machine

variable {c : Config}

/-! ## The state as an effect finds it -/

@[simp] theorem exact_acc (s : Engine c) : s.exact.acc = s.acc.toNat := rfl
@[simp] theorem exact_pc (s : Engine c) : s.exact.pc = s.pc.toNat := rfl
@[simp] theorem exact_mem (s : Engine c) : s.exact.mem = s.mem := rfl

/-! ## The end of the contract -/

@[simp] theorem commit_acc (s : Engine c) (e : Exact c) : (s.commit e).acc = maskW c e.acc := rfl
@[simp] theorem commit_pc (s : Engine c) (e : Exact c) : (s.commit e).pc = maskW c (e.pc + instructionSize) := rfl
@[simp] theorem commit_mem (s : Engine c) (e : Exact c) : (s.commit e).mem = e.mem := rfl
@[simp] theorem commit_totalCycles (s : Engine c) (e : Exact c) : (s.commit e).totalCycles = s.totalCycles := rfl
@[simp] theorem commit_breakpoints (s : Engine c) (e : Exact c) : (s.commit e).breakpoints = s.breakpoints := rfl
@[simp] theorem commit_draws (s : Engine c) (e : Exact c) : (s.commit e).draws = s.draws := rfl

/-! ## The host's count -/

@[simp] theorem countRetired_acc (s : Engine c) : s.countRetired.acc = s.acc := rfl
@[simp] theorem countRetired_pc (s : Engine c) : s.countRetired.pc = s.pc := rfl
@[simp] theorem countRetired_mem (s : Engine c) : s.countRetired.mem = s.mem := rfl
@[simp] theorem countRetired_totalCycles (s : Engine c) : s.countRetired.totalCycles = s.totalCycles + 1 := rfl
@[simp] theorem countRetired_breakpoints (s : Engine c) : s.countRetired.breakpoints = s.breakpoints := rfl
@[simp] theorem countRetired_draws (s : Engine c) : s.countRetired.draws = s.draws := rfl
@[simp] theorem state_countRetired_toEngine (s : State) : s.countRetired.toEngine = s.toEngine.countRetired := rfl

/-! ## The reset -/

@[simp] theorem reset_acc (s : Engine c) : s.reset.acc = 0 := rfl
@[simp] theorem reset_pc (s : Engine c) : s.reset.pc = 0 := rfl
@[simp] theorem reset_mem (s : Engine c) : s.reset.mem = s.mem := rfl
@[simp] theorem reset_totalCycles (s : Engine c) : s.reset.totalCycles = 0 := rfl
@[simp] theorem reset_breakpoints (s : Engine c) : s.reset.breakpoints = s.breakpoints := rfl
@[simp] theorem reset_draws (s : Engine c) : s.reset.draws = s.draws := rfl

/-- A second reset changes nothing. -/
@[simp] theorem reset_reset (s : Engine c) : s.reset.reset = s.reset := rfl

/-- What a reset leaves is a reset state. -/
theorem isResetState_reset (s : Engine c) : s.reset.IsResetState := ⟨s, rfl⟩

/-! ## A load -/

@[simp] theorem ofImage_acc (s : Engine c) (m : Image c) : (s.ofImage m).acc = BitVec.ofNat c.archBits m.acc := rfl
@[simp] theorem ofImage_pc (s : Engine c) (m : Image c) : (s.ofImage m).pc = BitVec.ofNat c.archBits m.pc := rfl
@[simp] theorem ofImage_mem (s : Engine c) (m : Image c) : (s.ofImage m).mem = Memory.ofCellsFrom 0 m.cells := rfl
@[simp] theorem ofImage_totalCycles (s : Engine c) (m : Image c) : (s.ofImage m).totalCycles = m.totalCycles := rfl
@[simp] theorem ofImage_breakpoints (s : Engine c) (m : Image c) : (s.ofImage m).breakpoints = m.breakpoints := rfl
@[simp] theorem ofImage_draws (s : Engine c) (m : Image c) : (s.ofImage m).draws = s.draws := rfl

@[simp] theorem afterFailedLoad_breakpoints (s : Engine c) : s.afterFailedLoad.breakpoints = [] := rfl
@[simp] theorem afterFailedLoad_draws (s : Engine c) : s.afterFailedLoad.draws = s.draws + 1 := rfl
@[simp] theorem afterFailedLoad_mem (s : Engine c) :
    s.afterFailedLoad.mem = Memory.ofCellsFrom 0 ((List.range c.memorySize).map (c.freeCell s.draws)) := rfl

/-! ## A placed instruction -/

@[simp] theorem placeCells_acc (s : Engine c) (p : c.Cell × c.Cell) : (placeCells s p).acc = s.acc := rfl
@[simp] theorem placeCells_pc (s : Engine c) (p : c.Cell × c.Cell) : (placeCells s p).pc = evenPc s.pc := rfl
@[simp] theorem placeCells_totalCycles (s : Engine c) (p : c.Cell × c.Cell) :
    (placeCells s p).totalCycles = s.totalCycles := rfl
@[simp] theorem placeCells_breakpoints (s : Engine c) (p : c.Cell × c.Cell) :
    (placeCells s p).breakpoints = s.breakpoints := rfl

/-! ## Outcomes -/

@[simp] theorem mapNext_next {σ τ φ ρ : Type} (f : σ → τ) (s : σ) :
    mapNext f (.next s : Host.Outcome σ φ ρ) = .next (f s) := rfl
@[simp] theorem mapNext_fault {σ τ φ ρ : Type} (f : σ → τ) (r : φ) :
    mapNext f (.fault r : Host.Outcome σ φ ρ) = .fault r := rfl
@[simp] theorem mapNext_refused {σ τ φ ρ : Type} (f : σ → τ) (r : ρ) :
    mapNext f (.refused r : Host.Outcome σ φ ρ) = .refused r := rfl

/-- Two states of the taken configuration are equal when their engines are. -/
theorem state_ext {s t : State} (h : s.toEngine = t.toEngine) : s = t := by
  cases s; cases t; exact congrArg State.mk h

end Sys2Proof.Machine
end

