-- ==== Sys2Proof/Laws/Words.lean ====
section
/-! SUPPORT. The two masks and the numbers of the configuration. -/

namespace Sys2Proof.Machine

variable {c : Config}

theorem memorySize_pos (c : Config) : 0 < c.memorySize := Nat.two_pow_pos _

theorem memorySize_le (c : Config) : c.memorySize ≤ 2 ^ c.archBits :=
  Nat.pow_le_pow_right (by decide) c.addrBits_le_archBits

theorem memorySize_even (c : Config) : c.memorySize % 2 = 0 := by
  have h := c.one_le_addrBits
  obtain ⟨k, hk⟩ : ∃ k, c.addrBits = k + 1 := ⟨c.addrBits - 1, by omega⟩
  simp [Config.memorySize, hk, Nat.pow_succ]

@[simp] theorem taken_memorySize : Config.taken.memorySize = 256 := rfl

/-- A value of the taken configuration is a byte. -/
theorem taken_toNat_lt (x : Config.taken.Cell) : x.toNat < 256 := x.isLt

theorem maskA_lt (c : Config) (v : Nat) : maskA c v < c.memorySize := Nat.mod_lt _ (Nat.two_pow_pos _)

/-- An address of the space is its own mask. -/
theorem maskA_of_lt {v : Nat} (h : v < c.memorySize) : maskA c v = v := Nat.mod_eq_of_lt h

/-- `mask_A` is idempotent (R31). -/
@[simp] theorem maskA_maskA (c : Config) (v : Nat) : maskA c (maskA c v) = maskA c v := maskA_of_lt (maskA_lt c v)

/-- `mask_A(v)` is `v AND ADDR_MASK` (00_scope.md §5). -/
theorem maskA_eq_and (c : Config) (v : Nat) : maskA c v = v &&& c.addrMask := (Nat.and_two_pow_sub_one_eq_mod v _).symm

/-- With `A = W` the mask of a cell value is the value (R31). -/
theorem maskA_toNat_of_eq (h : c.addrBits = c.archBits) (x : c.Cell) : maskA c x.toNat = x.toNat :=
  maskA_of_lt (by rw [Config.memorySize, h]; exact x.isLt)

/-- The number of a masked exact value is its remainder (00_scope.md §5). -/
theorem maskW_toNat (c : Config) (v : Int) : ((maskW c v).toNat : Int) = v % 2 ^ c.archBits := by
  simp only [maskW, BitVec.toNat_ofInt]
  have h : (0 : Int) ≤ v % 2 ^ c.archBits := Int.emod_nonneg _ (by positivity)
  push_cast
  omega

@[simp] theorem maskW_natCast (c : Config) (n : Nat) : maskW c (n : Int) = BitVec.ofNat c.archBits n := by
  simp [maskW]

/-- A value in range is its own mask (R11). -/
@[simp] theorem maskW_toNat_self (x : c.Cell) : maskW c (x.toNat : Int) = x := by simp

end Sys2Proof.Machine
end

