-- ==== Sys2Proof/Laws/Decode.lean ====
section
/-! SUPPORT. The decoder's one search, and the shape of what it builds. -/

namespace Sys2Proof

theorem mem_opcodes (op : Opcode) : op ∈ [Opcode.add, .and, .orr, .xor, .ldr, .str, .jmp, .jne] := by
  cases op <;> simp

/-- The tag of an opcode is found as that opcode: tags are injective (R8). -/
@[simp] theorem opcodeOf_tag (c : Config) (op : Opcode) : opcodeOf c (c.opcodeTag op) = some op := by
  unfold opcodeOf
  cases h : List.find? (fun p => c.opcodeTag p == c.opcodeTag op)
      [Opcode.add, .and, .orr, .xor, .ldr, .str, .jmp, .jne] with
  | none =>
    have := List.find?_eq_none.mp h op (mem_opcodes op)
    simp at this
  | some p =>
    have := List.find?_some h
    rw [c.opcodeTag_injective p op (by simpa using this)]

/-- A found opcode is the one whose tag the cell holds. -/
theorem opcodeOf_eq_some (c : Config) (b : c.Cell) (op : Opcode) : opcodeOf c b = some op ↔ c.opcodeTag op = b := by
  constructor
  · intro h
    simpa using List.find?_some h
  · rintro rfl
    exact opcodeOf_tag c op

theorem opcodeOf_eq_none (c : Config) (b : c.Cell) : opcodeOf c b = none ↔ ∀ op, c.opcodeTag op ≠ b := by
  constructor
  · rintro h op rfl
    simp at h
  · intro h
    cases ho : opcodeOf c b with
    | none => rfl
    | some op => exact absurd ((opcodeOf_eq_some c b op).mp ho) (h op)

@[simp] theorem make_opcode (op : Opcode) (a : Nat) : (Instr.make op a).opcode = op := by cases op <;> rfl

@[simp] theorem make_address (op : Opcode) (a : Nat) : (Instr.make op a).address = a := by cases op <;> rfl

@[simp] theorem make_self (i : Instr) : Instr.make i.opcode i.address = i := by cases i <;> rfl

/-- What a cell pair decodes to: the opcode whose tag the first cell holds, at the masked second. -/
theorem decode_ok_iff (c : Config) (b x : c.Cell) (i : Instr) :
    decode c b x = .ok i ↔ c.opcodeTag i.opcode = b ∧ i.address = maskA c x.toNat := by
  unfold decode
  cases h : opcodeOf c b with
  | none =>
    have hn := (opcodeOf_eq_none c b).mp h i.opcode
    simp [hn]
  | some op =>
    have hs := (opcodeOf_eq_some c b op).mp h
    subst hs
    simp only [Except.ok.injEq]
    constructor
    · rintro rfl
      simp
    · rintro ⟨h1, h2⟩
      rw [← c.opcodeTag_injective _ _ h1, ← h2, make_self]

/-- Every rejection names the opcode cell (R55). -/
theorem decode_error (c : Config) (b x : c.Cell) (e : DecodeError) (h : decode c b x = .error e) :
    e = .unknownOpcode b.toNat := by
  unfold decode at h
  split at h <;> simp_all

end Sys2Proof
end

