-- ==== Sys2Proof/Laws/Memory.lean ====
section
/-! SUPPORT. What each memory operation does to a read, and that each keeps the canonical form. -/

namespace Sys2Proof.Machine

variable {c : Config}

@[simp] theorem read_nil (i : Nat) : Memory.read ([] : Memory c) i = unlistedCell c := rfl

@[simp] theorem read_cons (j : Nat) (v : c.Cell) (m : Memory c) (i : Nat) :
    Memory.read ((j, v) :: m) i = if i = j then v else Memory.read m i := rfl

theorem read_of_not_listed {m : Memory c} {i : Nat} (h : ∀ entry ∈ m, entry.1 ≠ i) :
    Memory.read m i = unlistedCell c := by
  induction m with
  | nil => rfl
  | cons entry m ih =>
    obtain ⟨j, v⟩ := entry
    have hj : i ≠ j := fun e => h (j, v) (by simp) e.symm
    simp [hj, ih fun e he => h e (by simp [he])]

theorem read_erase (m : Memory c) (i k : Nat) :
    Memory.read (Memory.erase m i) k = if k = i then unlistedCell c else Memory.read m k := by
  induction m with
  | nil => simp [Memory.erase]
  | cons entry m ih =>
    obtain ⟨j, v⟩ := entry
    simp only [Memory.erase] at ih ⊢
    by_cases hj : j = i
    · subst hj
      by_cases hk : k = j <;> simp_all
    · by_cases hk : k = i
      · subst hk
        simp_all [Ne.symm hj]
      · simp_all

theorem not_listed_erase (m : Memory c) (i : Nat) : ∀ entry ∈ Memory.erase m i, entry.1 ≠ i := by
  simp [Memory.erase]

theorem read_insert {m : Memory c} {i : Nat} (h : ∀ entry ∈ m, entry.1 ≠ i) (v : c.Cell) (k : Nat) :
    Memory.read (Memory.insert m i v) k = if k = i then v else Memory.read m k := by
  induction m with
  | nil => simp [Memory.insert]
  | cons entry m ih =>
    obtain ⟨j, x⟩ := entry
    have hj : j ≠ i := h (j, x) (by simp)
    specialize ih fun e he => h e (by simp [he])
    simp only [Memory.insert]
    split
    · rfl
    · by_cases hk : k = i
      · subst hk
        simp [ih, Ne.symm hj]
      · simp [ih, hk]

/-- Everything a write does to the cells. -/
theorem read_write (m : Memory c) (i : Nat) (v : c.Cell) (k : Nat) :
    Memory.read (Memory.write m i v) k = if k = i then v else Memory.read m k := by
  unfold Memory.write
  split
  · rename_i h
    rw [read_erase, h]
  · rw [read_insert (not_listed_erase m i), read_erase]
    split <;> rfl

theorem mem_insert {m : Memory c} {i : Nat} {v : c.Cell} {entry : Nat × c.Cell}
    (h : entry ∈ Memory.insert m i v) : entry = (i, v) ∨ entry ∈ m := by
  induction m with
  | nil => simpa [Memory.insert] using h
  | cons e m ih =>
    obtain ⟨j, x⟩ := e
    simp only [Memory.insert] at h
    split at h
    · simpa using h
    · rcases List.mem_cons.mp h with h | h
      · simp [h]
      · rcases ih h with h | h <;> simp [h]

theorem erase_keeps_wf {m : Memory c} (h : Memory.wf m) (i : Nat) : Memory.wf (Memory.erase m i) :=
  ⟨h.1.filter _, fun e he => h.2 e (List.mem_filter.mp he).1⟩

theorem insert_pairwise {m : Memory c} {i : Nat} (h : m.Pairwise fun p q => p.1 < q.1)
    (hn : ∀ entry ∈ m, entry.1 ≠ i) (v : c.Cell) : (Memory.insert m i v).Pairwise fun p q => p.1 < q.1 := by
  induction m with
  | nil => simp [Memory.insert]
  | cons entry m ih =>
    obtain ⟨j, x⟩ := entry
    obtain ⟨hlt, htail⟩ := List.pairwise_cons.mp h
    have hj : j ≠ i := hn (j, x) (by simp)
    simp only [Memory.insert]
    split
    · rename_i hij
      refine List.pairwise_cons.mpr ⟨fun e he => ?_, h⟩
      rcases List.mem_cons.mp he with rfl | he
      · exact hij
      · exact lt_trans hij (hlt e he)
    · refine List.pairwise_cons.mpr ⟨fun e he => ?_, ih htail fun e he => hn e (by simp [he])⟩
      rcases mem_insert he with rfl | he
      · exact lt_of_le_of_ne (by omega) hj
      · exact hlt e he

/-- A write to a cell that exists keeps the canonical form. -/
theorem write_keeps_wf {m : Memory c} (h : Memory.wf m) {i : Nat} (hi : i < c.memorySize) (v : c.Cell) :
    Memory.wf (Memory.write m i v) := by
  unfold Memory.write
  have he := erase_keeps_wf h i
  split
  · exact he
  · rename_i hv
    refine ⟨insert_pairwise he.1 (not_listed_erase m i) v, fun e hmem => ?_⟩
    rcases mem_insert hmem with rfl | hmem
    · exact ⟨hi, hv⟩
    · exact he.2 e hmem

/-- Every store of the memory unit keeps the canonical form. -/
theorem memWrite_keeps_wf {m : Memory c} (h : Memory.wf m) (address : Nat) (v : Int) :
    Memory.wf (memWrite m address v) := write_keeps_wf h (maskA_lt c address) _

theorem ofCellsFrom_bounds {start : Nat} {vs : List c.Cell} {entry : Nat × c.Cell}
    (h : entry ∈ Memory.ofCellsFrom start vs) :
    start ≤ entry.1 ∧ entry.1 < start + vs.length ∧ entry.2 ≠ unlistedCell c := by
  induction vs generalizing start with
  | nil => simp [Memory.ofCellsFrom] at h
  | cons v vs ih =>
    simp only [Memory.ofCellsFrom] at h
    split at h
    · obtain ⟨h1, h2, h3⟩ := ih h
      exact ⟨by omega, by simp only [List.length_cons]; omega, h3⟩
    · rename_i hv
      rcases List.mem_cons.mp h with rfl | h
      · exact ⟨le_refl _, by simp, hv⟩
      · obtain ⟨h1, h2, h3⟩ := ih h
        exact ⟨by omega, by simp only [List.length_cons]; omega, h3⟩

theorem ofCellsFrom_pairwise (start : Nat) (vs : List c.Cell) :
    (Memory.ofCellsFrom start vs).Pairwise fun p q => p.1 < q.1 := by
  induction vs generalizing start with
  | nil => simp [Memory.ofCellsFrom]
  | cons v vs ih =>
    simp only [Memory.ofCellsFrom]
    split
    · exact ih _
    · exact List.pairwise_cons.mpr ⟨fun e he => (ofCellsFrom_bounds he).1, ih _⟩

/-- A memory built from the values of its cells is in canonical form. -/
theorem ofCellsFrom_wf {vs : List c.Cell} (h : vs.length ≤ c.memorySize) : Memory.wf (Memory.ofCellsFrom 0 vs) :=
  ⟨ofCellsFrom_pairwise 0 vs, fun e he => by
    obtain ⟨_, h2, h3⟩ := ofCellsFrom_bounds he
    exact ⟨by omega, h3⟩⟩

/-- Everything a built memory reads as. -/
theorem read_ofCellsFrom (start : Nat) (vs : List c.Cell) (i : Nat) :
    Memory.read (Memory.ofCellsFrom start vs) i =
      if start ≤ i then vs.getD (i - start) (unlistedCell c) else unlistedCell c := by
  induction vs generalizing start with
  | nil => simp [Memory.ofCellsFrom]
  | cons v vs ih =>
    simp only [Memory.ofCellsFrom]
    rcases Nat.lt_trichotomy i start with h | h | h
    · have h1 : ¬ start ≤ i := by omega
      have h2 : ¬ start + 1 ≤ i := by omega
      have h3 : i ≠ start := by omega
      rw [if_neg h1]
      split <;> simp [ih, h2, h3]
    · subst h
      have h2 : ¬ i + 1 ≤ i := by omega
      split <;> simp_all
    · have h1 : start ≤ i := by omega
      have h2 : start + 1 ≤ i := by omega
      have h3 : i ≠ start := by omega
      obtain ⟨k, rfl⟩ : ∃ k, i = start + 1 + k := ⟨i - (start + 1), by omega⟩
      have h4 : start + 1 + k - start = k + 1 := by omega
      split <;> simp [ih, h3, h4]

end Sys2Proof.Machine
end

