-- ==== Sys2Proof/Laws/Step.lean ====
section
/-! SUPPORT. What a fetch, an execution, a step and a run can do, each said once. -/

namespace Sys2Proof.Machine

variable {c : Config}

/-- The four cases of R100's checks, in its order. -/
theorem fetchDecode_cases (s : Engine c) :
    (s.pc.toNat % 2 = 1 ∧ fetchDecode s = .error (.alignment s.pc.toNat)) ∨
    (s.pc.toNat % 2 = 0 ∧ c.memorySize ≤ s.pc.toNat + 1 ∧ fetchDecode s = .error (.fetchRange s.pc.toNat)) ∨
    (s.pc.toNat % 2 = 0 ∧ s.pc.toNat + 1 < c.memorySize ∧
      ((∃ i, decode c (fetch s).1 (fetch s).2 = .ok i ∧ fetchDecode s = .ok i) ∨
       (opcodeOf c (fetch s).1 = none ∧ fetchDecode s = .error (.decode s.pc.toNat (fetch s).1.toNat)))) := by
  unfold fetchDecode
  split
  · exact .inl ⟨by omega, rfl⟩
  · split
    · exact .inr (.inl ⟨by omega, by omega, rfl⟩)
    · refine .inr (.inr ⟨by omega, by omega, ?_⟩)
      cases h : decode c (fetch s).1 (fetch s).2 with
      | ok i => exact .inl ⟨i, rfl, rfl⟩
      | error e =>
        refine .inr ⟨?_, rfl⟩
        unfold decode at h
        split at h
        · simp at h
        · assumption

/-- When a step has an instruction to run. -/
theorem fetchDecode_ok_iff (s : Engine c) (i : Instr) :
    fetchDecode s = .ok i ↔
      s.pc.toNat % 2 = 0 ∧ s.pc.toNat + 1 < c.memorySize ∧ decode c (fetch s).1 (fetch s).2 = .ok i := by
  unfold fetchDecode
  split
  · rename_i h; simp [h]
  · rename_i h
    have h' : s.pc.toNat % 2 = 0 := by omega
    split
    · rename_i h2; simp [Nat.not_lt.mpr h2]
    · rename_i h2
      simp only [h', Nat.not_le.mp h2, true_and]
      split <;> simp_all

/-- The block's step retires one instruction or faults. -/
theorem blockStep_retired_iff (s t : Engine c) :
    blockStep s = .retired t ↔ ∃ i, fetchDecode s = .ok i ∧ t = execute i s := by
  unfold blockStep
  cases h : fetchDecode s with
  | ok i => simp [eq_comm]
  | error r => simp

theorem blockStep_fault_iff (s : Engine c) (r : Fault) : blockStep s = .fault r ↔ fetchDecode s = .error r := by
  unfold blockStep
  split <;> simp_all

/-- An execution leaves the host's state and the model's own alone (R112, R115). -/
@[simp] theorem execute_totalCycles (i : Instr) (s : Engine c) : (execute i s).totalCycles = s.totalCycles := rfl
@[simp] theorem execute_breakpoints (i : Instr) (s : Engine c) : (execute i s).breakpoints = s.breakpoints := rfl
@[simp] theorem execute_draws (i : Instr) (s : Engine c) : (execute i s).draws = s.draws := rfl

/-- What an execution does to memory: STR's store, or nothing (R19). -/
theorem execute_mem (i : Instr) (s : Engine c) :
    (execute i s).mem = match i with
      | .str address => memWrite s.mem address s.acc.toNat
      | _ => s.mem := by
  cases i with
  | jne a =>
    simp only [execute, effect, effectJne, commit_mem]
    split <;> rfl
  | _ => rfl

/-- Every execution keeps the canonical form. -/
theorem execute_keeps_wf (i : Instr) {s : Engine c} (h : Memory.wf s.mem) : Memory.wf (execute i s).mem := by
  rw [execute_mem]
  split
  · exact memWrite_keeps_wf h _ _
  · exact h

/-- Retiring an effect answers a next state: the effect committed, everything of the host's as it was. -/
theorem retire_eq (e : Exact Config.taken) (s : State) : retire e s = .next { s with toEngine := s.toEngine.commit e } := rfl

/-- Every arm of the dispatch retires the instruction by the contract: the meanings and the configuration-wide execution are
the same. -/
theorem exec_eq_execute (i : Instr) (s : State) : exec i s = .next { s with toEngine := execute i s.toEngine } := by
  cases i <;> rfl

/-- If the machine steps to `t`, it fetched and decoded an instruction, ran it and counted it. -/
theorem step_next_iff (s t : State) :
    step s = .next t ↔ ∃ i, fetchDecode s.toEngine = .ok i ∧ t.toEngine = (execute i s.toEngine).countRetired := by
  unfold step
  split
  · rename_i i h
    simp only [exec_eq_execute, mapNext_next, Host.Outcome.next.injEq, h, Except.ok.injEq, exists_eq_left']
    constructor
    · rintro rfl; rfl
    · exact fun h => state_ext h.symm
  · simp_all

theorem step_fault_iff (s : State) (r : Fault) : step s = .fault r ↔ fetchDecode s.toEngine = .error r := by
  unfold step
  split <;> simp_all [exec_eq_execute]

@[simp] theorem run_zero (s : Engine c) : run 0 s = (.completed, s) := rfl

/-- One iteration of the host's loop (R111). -/
theorem run_succ (n : Nat) (s : Engine c) :
    run (n + 1) s = match blockStep s with
      | .fault r => (.faulted r, s)
      | .retired t =>
        if breakpointAt t.breakpoints t.pc.toNat then (.atBreakpoint, t.countRetired) else run n t.countRetired := rfl

/-- One step of the host interface's own run is one step of the machine. -/
theorem core_run_succ (n : Nat) (s : State) :
    Host.Core.run Sys2Proof.core (n + 1) s = match step s with
      | .next t => Host.Core.run Sys2Proof.core n t
      | .fault r => .fault r
      | .refused r => .refused r := by
  have h := Host.Core.run.eq_2 Sys2Proof.core s n
  rw [show Sys2Proof.core.step s = step s from rfl] at h
  refine h.trans ?_
  cases step s with
  | next t => rfl
  | fault r => rfl
  | refused r => rfl

end Sys2Proof.Machine
end

