-- ==== Sys2Proof/Laws/Host.lean ====
section
/-! SUPPORT. What each host operation can answer: the breakpoint table and the parts of a load. -/

namespace Sys2Proof.Machine

variable {c : Config}

theorem findByAddress_isSome_iff (table : List Breakpoint) (a : Nat) :
    (findByAddress c table a).isSome ↔ ∃ b ∈ table, b.address = maskA c a := by
  simp [findByAddress, List.find?_isSome]

theorem findByName_isSome_iff (table : List Breakpoint) (name : BreakpointName) :
    (findByName table name).isSome ↔ ∃ b ∈ table, b.name = name := by
  simp [findByName, List.find?_isSome]

theorem breakpointAt_iff (table : List Breakpoint) (p : Nat) : breakpointAt table p = true ↔ ∃ b ∈ table, b.address = p := by
  simp [breakpointAt]

/-- When an insertion succeeds, and what it answers (R117). -/
theorem insertBreakpoint_ok_iff (table t' : List Breakpoint) (a : Nat) (name : BreakpointName) :
    insertBreakpoint c table a name = .ok t' ↔
      table.length < c.maxInstructions ∧ (∀ b ∈ table, b.address ≠ maskA c a) ∧ (∀ b ∈ table, b.name ≠ name) ∧
        t' = table ++ [⟨maskA c a, name⟩] := by
  have h1 := findByAddress_isSome_iff (c := c) table a
  have h2 := findByName_isSome_iff table name
  unfold insertBreakpoint
  split
  · rename_i h; simp [Nat.not_lt.mpr h]
  · rename_i h
    split
    · rename_i ha
      obtain ⟨b, hb, he⟩ := h1.mp ha
      simp only [reduceCtorEq, false_iff]
      exact fun hall => hall.2.1 b hb he
    · rename_i ha
      split
      · rename_i hn
        obtain ⟨b, hb, he⟩ := h2.mp hn
        simp only [reduceCtorEq, false_iff]
        exact fun hall => hall.2.2.1 b hb he
      · rename_i hn
        have ha' : ∀ b ∈ table, b.address ≠ maskA c a := fun b hb he => ha (h1.mpr ⟨b, hb, he⟩)
        have hn' : ∀ b ∈ table, b.name ≠ name := fun b hb he => hn (h2.mpr ⟨b, hb, he⟩)
        rw [Except.ok.injEq]
        exact ⟨fun e => ⟨Nat.not_le.mp h, ha', hn', e.symm⟩, fun e => e.2.2.2.symm⟩

/-- When a deletion by address succeeds, and what it answers (R119). -/
theorem deleteByAddress_ok_iff (table t' : List Breakpoint) (a : Nat) :
    deleteByAddress c table a = .ok t' ↔
      (∃ b ∈ table, b.address = maskA c a) ∧ t' = table.eraseP fun b => b.address == maskA c a := by
  rw [← findByAddress_isSome_iff (c := c)]
  unfold deleteByAddress
  split
  · rename_i h
    simp only [h, true_and, Except.ok.injEq]
    exact eq_comm
  · rename_i h
    simp [h]

/-- When a deletion by name succeeds, and what it answers (R119). -/
theorem deleteByName_ok_iff (table t' : List Breakpoint) (name : BreakpointName) :
    deleteByName table name = .ok t' ↔
      (∃ b ∈ table, b.name = name) ∧ t' = table.eraseP fun b => b.name == name := by
  rw [← findByName_isSome_iff]
  unfold deleteByName
  split
  · rename_i h
    simp only [h, true_and, Except.ok.injEq]
    exact eq_comm
  · rename_i h
    simp [h]

/-- What a breakpoint operation does to the state: only the table, and only if it succeeds. -/
theorem withTable_snd (s : Engine c) (r : Except TableError (List Breakpoint)) :
    (withTable s r).2 = s ∨ ∃ table, r = .ok table ∧ (withTable s r).2 = { s with breakpoints := table } := by
  cases r with
  | ok table => exact .inr ⟨table, rfl, rfl⟩
  | error e => exact .inl rfl

/-- A taken integer is the file's next line, non-negative and below the bound. -/
theorem takeNat_eq_some (bound : Option Nat) (lines rest : List FileLine) (v : Nat) :
    takeNat bound lines = some (v, rest) ↔ lines = .integer v :: rest ∧ ∀ b ∈ bound, v < b := by
  unfold takeNat
  split
  · rename_i x tail
    constructor
    · intro h
      split at h
      · rename_i hx
        obtain ⟨h0, hb⟩ := hx
        simp only [Option.some.injEq, Prod.mk.injEq] at h
        obtain ⟨rfl, rfl⟩ := h
        refine ⟨by simp [h0], fun b hm => ?_⟩
        have := hb b hm
        omega
      · simp at h
    · rintro ⟨h, hb⟩
      simp only [List.cons.injEq, FileLine.integer.injEq] at h
      obtain ⟨rfl, rfl⟩ := h
      simp only [Option.mem_def] at hb ⊢
      rw [if_pos ⟨by omega, fun b hm => by have := hb b hm; omega⟩]
      simp
  · rename_i h
    simp only [reduceCtorEq, false_iff]
    rintro ⟨rfl, _⟩
    exact h _ _ rfl

/-- The cells a load takes: as many as asked for. -/
theorem takeCells_length {n : Nat} {lines rest : List FileLine} {vs : List c.Cell}
    (h : takeCells c n lines = some (vs, rest)) : vs.length = n ∧ lines.length = n + rest.length := by
  induction n generalizing lines rest vs with
  | zero =>
    simp only [takeCells, Option.some.injEq, Prod.mk.injEq] at h
    obtain ⟨rfl, rfl⟩ := h
    simp
  | succ n ih =>
    simp only [takeCells, Option.bind_eq_bind, Option.bind_eq_some_iff, Prod.exists, Option.some.injEq,
      Prod.mk.injEq] at h
    obtain ⟨v, rest1, h1, vs1, rest2, h2, rfl, rfl⟩ := h
    obtain ⟨rfl, _⟩ := (takeNat_eq_some _ _ _ _).mp h1
    obtain ⟨rfl, h3⟩ := ih h2
    exact ⟨rfl, by simp only [List.length_cons]; omega⟩

@[simp] theorem persistenceFault_code : LoadStatus.persistenceFault.code = 0 := rfl

/-- What a load can answer: success with the file's values, or the persistence fault with the free ones (R143, R144). -/
theorem loadState_cases (file : List FileLine) (s : Engine c) :
    (∃ image, parseImage c file = some image ∧ loadState file s = (.loaded, s.ofImage image)) ∨
    (parseImage c file = none ∧ loadState file s = (.persistenceFault, s.afterFailedLoad)) := by
  unfold loadState
  cases parseImage c file with
  | some image => exact .inl ⟨image, rfl, rfl⟩
  | none => exact .inr ⟨rfl, rfl⟩

/-- The parts of a file that a load reads, in order (R143). -/
theorem parseImage_eq_some (file : List FileLine) (image : Image c) (h : parseImage c file = some image) :
    ∃ rest1 rest2 rest3 rest4,
      takeNat none file = some (image.totalCycles, rest1) ∧
      takeNat (some (archMaxVal c.archBits + 1)) rest1 = some (image.acc, rest2) ∧
      takeNat (some c.memorySize) rest2 = some (image.pc, rest3) ∧
      takeCells c c.memorySize rest3 = some (image.cells, rest4) ∧
      takeBreakpoints c [] rest4 = some image.breakpoints := by
  simp only [parseImage, Option.bind_eq_bind, Option.bind_eq_some_iff, Prod.exists, Option.some.injEq] at h
  obtain ⟨n, r1, h1, a, r2, h2, p, r3, h3, vs, r4, h4, bs, h5, rfl⟩ := h
  exact ⟨r1, r2, r3, r4, h1, h2, h3, h4, h5⟩

end Sys2Proof.Machine
end

