-- ==== Sys2Proof/Laws/PerInstr.lean ====
section
/-! SUPPORT. The family EncodedCells: what the two cells of an encoded instruction hold, one lemma per constructor. -/

namespace Sys2Proof.Laws.EncodedCells

open Sys2Proof.Machine

/-- The opcode cell holds the mnemonic's tag, and the operand cell of a well-formed instruction holds its address (R51). -/
def Statement (i : Instr) : Prop :=
  ∀ c : Config, (encode c i).1 = c.opcodeTag i.opcode ∧ (i.WellFormed c → (encode c i).2.toNat = i.address)

theorem of_encode (i : Instr) : Statement i := fun c =>
  ⟨rfl, fun h => by simp [encode, Nat.mod_eq_of_lt (lt_of_lt_of_le h (memorySize_le c))]⟩

theorem add (a : Nat) : Statement (.add a) := of_encode _
theorem and (a : Nat) : Statement (.and a) := of_encode _
theorem orr (a : Nat) : Statement (.orr a) := of_encode _
theorem xor (a : Nat) : Statement (.xor a) := of_encode _
theorem ldr (a : Nat) : Statement (.ldr a) := of_encode _
theorem str (a : Nat) : Statement (.str a) := of_encode _
theorem jmp (a : Nat) : Statement (.jmp a) := of_encode _
theorem jne (a : Nat) : Statement (.jne a) := of_encode _

end Sys2Proof.Laws.EncodedCells
end

