-- ==== Sys2Proof/Tests/Slice0.lean ====
section
/-! SUPPORT. The model's own tests: decoding words written out from 30_encoding.md R51 and R54, one small step per instruction
with the values of spec/95_test_vectors.md, the checks of WellFormed, the host's operations, and a witness for the hypotheses
of each statement that has some. -/

namespace Sys2Proof.Tests

open Sys2Proof Sys2Proof.Machine

/-! ## Helpers -/

/-- A state of the taken configuration with the given registers and cells. -/
def st (acc pc : Nat) (mem : Memory Config.taken) : State where
  acc := BitVec.ofNat 8 acc
  pc := BitVec.ofNat 8 pc
  mem := mem
  totalCycles := 0
  breakpoints := []
  draws := 0

/-- The configuration of 95_test_vectors.md §2.7: W = 8, A = 4, N = 16. -/
abbrev narrow : Config where
  archBits := 8
  addrBits := 4
  opcodeTag := listedTag
  one_le_addrBits := by decide
  addrBits_le_archBits := by decide
  opcodeTag_injective := listedTag_injective

/-- The smallest address space: A = 1, two cells, one instruction slot, one breakpoint. -/
abbrev tiny : Config where
  archBits := 8
  addrBits := 1
  opcodeTag := listedTag
  one_le_addrBits := by decide
  addrBits_le_archBits := by decide
  opcodeTag_injective := listedTag_injective

/-- An engine of any configuration with the given registers and cells. -/
def en (c : Config) (acc pc : Nat) (mem : Memory c) : Engine c where
  acc := BitVec.ofNat c.archBits acc
  pc := BitVec.ofNat c.archBits pc
  mem := mem
  totalCycles := 0
  breakpoints := []
  draws := 0

/-- acc and pc of a next state. -/
def accPc : Host.Outcome State Fault Refusal → Option (Nat × Nat)
  | .next s => some (s.acc.toNat, s.pc.toNat)
  | _ => none

/-- acc, pc and one cell of a next state. -/
def accPcCell (k : Nat) : Host.Outcome State Fault Refusal → Option (Nat × Nat × Nat)
  | .next s => some (s.acc.toNat, s.pc.toNat, (Memory.read s.mem k).toNat)
  | _ => none

def faultOf : Host.Outcome State Fault Refusal → Option Fault
  | .fault r => some r
  | _ => none

/-- acc and pc of a retired step of the block. -/
def retiredAccPc {c : Config} : StepResult c → Option (Nat × Nat)
  | .retired s => some (s.acc.toNat, s.pc.toNat)
  | .fault _ => none

def nameA : BreakpointName := ⟨"a", by decide⟩
def nameB : BreakpointName := ⟨"b", by decide⟩

/-! ## WellFormed: one check, refused at the first address outside the space, passed at the last inside -/

theorem test_wellFormed_refuses_256 : ¬ (Instr.add 256).WellFormed Config.taken := by decide
theorem test_wellFormed_passes_255 : (Instr.add 255).WellFormed Config.taken := by decide
theorem test_wellFormed_narrow_refuses_16 : ¬ (Instr.jne 16).WellFormed narrow := by decide

/-! ## Decoding: the cells written out bit by bit (R51, R54) -/

theorem test_decode_add : decode Config.taken 0b00000000#8 0b00010100#8 = .ok (.add 20) := by rfl
theorem test_decode_and : decode Config.taken 0b00000001#8 0b00010101#8 = .ok (.and 21) := by rfl
theorem test_decode_orr : decode Config.taken 0b00000010#8 0b00000111#8 = .ok (.orr 7) := by rfl
theorem test_decode_xor : decode Config.taken 0b00000011#8 0b00010001#8 = .ok (.xor 17) := by rfl
theorem test_decode_ldr : decode Config.taken 0b00000100#8 0b00001010#8 = .ok (.ldr 10) := by rfl
theorem test_decode_str : decode Config.taken 0b00000101#8 0b00010110#8 = .ok (.str 22) := by rfl
theorem test_decode_jmp : decode Config.taken 0b00000110#8 0b00001000#8 = .ok (.jmp 8) := by rfl
theorem test_decode_jne : decode Config.taken 0b00000111#8 0b00000010#8 = .ok (.jne 2) := by rfl
theorem test_decode_first_illegal : decode Config.taken 8#8 0#8 = .error (.unknownOpcode 8) := by rfl
theorem test_decode_last_illegal : decode Config.taken 255#8 0#8 = .error (.unknownOpcode 255) := by rfl
theorem test_decode_masks_narrow : decode narrow 4#8 0x1A#8 = .ok (.ldr 10) := by rfl
theorem test_encode_ldr : encode Config.taken (.ldr 10) = (4#8, 10#8) := by decide
theorem test_table_word_opcode_high : decodeTableWord 16 0x0723 = some (.jne 0x23) := by decide
theorem test_decodeCells_truncated : decodeCells Config.taken [4#8] = .error .truncated := by rfl

/-! ## One step of each instruction (95_test_vectors.md §2.1 to §2.5) -/

theorem test_add_wraps : accPc (step (st 255 0 [(1, 20#8), (20, 1#8)])) = some (0, 2) := by decide
theorem test_add_300_at_254 : accPc (step (st 200 254 [(20, 100#8), (255, 20#8)])) = some (44, 0) := by decide
theorem test_and : accPc (step (st 0xCC 0 [(0, 1#8), (1, 20#8), (20, 0xAA#8)])) = some (0x88, 2) := by decide
theorem test_orr : accPc (step (st 0xCC 0 [(0, 2#8), (1, 20#8), (20, 0xAA#8)])) = some (0xEE, 2) := by decide
theorem test_xor : accPc (step (st 0xCC 0 [(0, 3#8), (1, 20#8), (20, 0xAA#8)])) = some (0x66, 2) := by decide
theorem test_xor_complement : accPc (step (st 0x5A 0 [(0, 3#8), (1, 20#8), (20, 0xFF#8)])) = some (0xA5, 2) := by decide
/-- E1, the source's one program example. -/
theorem test_ldr_source_example : accPc (step (st 0 0 [(0, 4#8), (1, 10#8), (10, 5#8)])) = some (5, 2) := by decide
theorem test_ldr_own_opcode_cell : accPc (step (st 0 0 [(0, 4#8)])) = some (4, 2) := by decide
theorem test_str : accPcCell 30 (step (st 9 4 [(4, 5#8), (5, 30#8)])) = some (9, 6, 9) := by decide
theorem test_str_own_operand_cell : accPcCell 1 (step (st 0x42 0 [(0, 5#8), (1, 1#8)])) = some (0x42, 2, 0x42) := by
  decide
theorem test_jmp_to_zero : accPc (step (st 7 30 [(30, 6#8)])) = some (7, 0) := by decide
theorem test_jmp_to_odd : accPc (step (st 7 30 [(30, 6#8), (31, 1#8)])) = some (7, 1) := by decide
theorem test_jne_taken : accPc (step (st 255 6 [(6, 7#8), (7, 2#8)])) = some (255, 2) := by decide
theorem test_jne_falls_through_and_wraps : accPc (step (st 0 254 [(254, 7#8), (255, 8#8)])) = some (0, 0) := by decide

/-! ## Faults (§2.6) and the narrow address space (§2.7) -/

theorem test_fault_alignment_wins : faultOf (step (st 0 3 [(3, 200#8)])) = some (.alignment 3) := by decide
theorem test_fault_decode : faultOf (step (st 3 4 [(4, 8#8)])) = some (.decode 4 8) := by decide
theorem test_fault_codes : [Fault.alignment 5, .decode 4 8, .fetchRange 16].map Fault.code = [1, 2, 3] := by decide
theorem test_narrow_ldr : retiredAccPc (blockStep (en narrow 0 0 [(0, 4#8), (1, 0x1A#8), (10, 7#8)])) = some (7, 2) := by
  decide
theorem test_narrow_jmp : retiredAccPc (blockStep (en narrow 0 0 [(0, 6#8), (1, 0x16#8)])) = some (0, 6) := by decide
theorem test_narrow_last_slot : retiredAccPc (blockStep (en narrow 1 14 [])) = some (1, 16) := by decide
theorem test_narrow_fetch_range : blockStep (en narrow 1 16 []) = .fault (.fetchRange 16) := by decide

/-! ## The host's operations (§2.8) -/

/-- A two-step self-loop state with a breakpoint on it: it triggers after the first step, not at the start (R113). -/
theorem test_run_breakpoint :
    (run 3 { (en Config.taken 0 8 [(8, 6#8), (9, 8#8)]) with breakpoints := [⟨8, nameA⟩] }).1 = .atBreakpoint := by decide
theorem test_run_start_breakpoint_not_triggered :
    (run 1 { (en Config.taken 0 0 []) with breakpoints := [⟨0, nameA⟩] }).1 = .completed := by decide
theorem test_run_fault_counts_nothing :
    run 2 (en Config.taken 3 4 [(4, 9#8)]) = (.faulted (.decode 4 9), en Config.taken 3 4 [(4, 9#8)]) := by decide
theorem test_insert_full : insertBreakpoint tiny [⟨0, nameA⟩] 1 nameB = .error .tableFull := by rfl
theorem test_insert_masks : insertBreakpoint narrow [⟨3, nameA⟩] 0x14 nameB = .ok [⟨3, nameA⟩, ⟨4, nameB⟩] := by rfl
theorem test_delete_keeps_order :
    deleteByName [⟨1, nameA⟩, ⟨2, nameB⟩, ⟨3, ⟨"d", by decide⟩⟩] nameB = .ok [⟨1, nameA⟩, ⟨3, ⟨"d", by decide⟩⟩] := by rfl
theorem test_read_memory_refused : (transact (.readMemory 16) (en narrow 0 0 [])).1 = .refused (.noSuchCell 16) := by decide
theorem test_reset_keeps_memory :
    (transact .reset (en Config.taken 9 5 [(7, 7#8)])).2 = en Config.taken 0 0 [(7, 7#8)] := by decide

/-- A complete state file of the smallest machine: total_cycles 3, acc 9, pc 1, cells 4 and 0, one breakpoint. -/
def goodFile : List FileLine :=
  [.integer 3, .integer 9, .integer 1, .integer 4, .integer 0, .breakpoint 1 nameA]

def goodState : Engine tiny := { (en tiny 9 1 [(0, 4#8)]) with totalCycles := 3, breakpoints := [⟨1, nameA⟩] }

theorem test_load : loadState goodFile (en tiny 0 0 []) = (.loaded, goodState) := by decide
theorem test_save : saveState .written goodState = (true, goodFile) := by decide
theorem test_assemble_source_line : assembleLine Config.taken ['L', 'D', 'R', ' ', '1', '0'] = some (4#8, 10#8) := by decide
theorem test_assemble_rejects_256 : assembleLine Config.taken ['L', 'D', 'R', ' ', '2', '5', '6'] = none := by decide
theorem test_assemble_lines :
    assembleLines Config.taken [['L', 'D', 'R', ' ', '6'], ['O', 'R', 'R', ' ', '7']] = some [4#8, 6#8, 2#8, 7#8] := by decide
/-- E7, the source's two templates. -/
theorem test_render : render (.add 20) = "ADD: ACC <- ACC + [20]" ∧ render (.jmp 8) = "JMP: PC <- 8" := by decide

/-! ## Witnesses: concrete inputs that meet the hypotheses of each statement, clause by clause where it has several -/

theorem witness_JmpGoesToAddress : 255 < Config.taken.memorySize ∧ 15 < narrow.memorySize := by decide

theorem witness_JneGoesToAddressIfNonZero :
    255 < Config.taken.memorySize ∧ 0 < narrow.memorySize ∧ (st 0 254 []).acc = 0 ∧ (st 255 254 []).acc ≠ 0 := by decide

theorem witness_AluCornerOperands :
    Memory.read (st 3 0 []).mem (maskA Config.taken 20) = 0 ∧
    Memory.read (st 3 0 [(20, 255#8)]).mem (maskA Config.taken 20) = BitVec.allOnes 8 ∧
    Memory.read (st 3 0 [(20, 3#8)]).mem (maskA Config.taken 20) = (st 3 0 []).acc := by decide

theorem witness_FallThroughAdvancesModuloWord :
    (∀ a, Instr.add 20 ≠ .jmp a) ∧ ((∃ a, Instr.add 20 = .jne a) → (st 5 254 []).acc = 0) ∧
    (st 5 254 []).pc.toNat + 2 = 2 ^ 8 ∧ (st 0 0 []).acc = 0 :=
  ⟨by simp, by simp, by decide, by decide⟩

theorem witness_JumpNetEffectIsExact :
    0 < Config.taken.memorySize ∧ 1 < Config.taken.memorySize ∧ 255 < Config.taken.memorySize ∧
    (st 1 0 []).acc ≠ 0 ∧ (st 0 0 []).acc = 0 := by decide

theorem witness_JumpToOddAddressFaultsNext : 255 < 256 ∧ 255 % 2 = 1 ∧ 1 < 256 ∧ 1 % 2 = 1 ∧ (st 1 0 []).acc ≠ 0 := by decide

theorem witness_SelfLoopOnlyCounts :
    fetchDecode (en Config.taken 0 8 [(8, 6#8), (9, 8#8)]) = .ok (.jmp 8) ∧
    breakpointAt (en Config.taken 0 8 [(8, 6#8), (9, 8#8)]).breakpoints 8 = false := ⟨rfl, rfl⟩

theorem witness_OnlyStrWritesMemory :
    (∀ a, Instr.ldr 10 ≠ .str a) ∧ exec (.ldr 10) (st 0 0 [(10, 5#8)]) = .next (st 5 2 [(10, 5#8)]) := ⟨by simp, rfl⟩

theorem witness_BlockStepChecksInOrder_alignment : (st 0 255 []).pc.toNat % 2 = 1 := by decide
theorem witness_BlockStepChecksInOrder_fetchRange :
    (en narrow 0 16 []).pc.toNat % 2 = 0 ∧ narrow.memorySize ≤ (en narrow 0 16 []).pc.toNat + 1 := by decide
theorem witness_BlockStepChecksInOrder_decode :
    (en narrow 0 14 [(14, 8#8)]).pc.toNat % 2 = 0 ∧ (en narrow 0 14 [(14, 8#8)]).pc.toNat + 1 < narrow.memorySize ∧
    ∀ op, narrow.opcodeTag op ≠ Memory.read (en narrow 0 14 [(14, 8#8)]).mem 14 :=
  ⟨by decide, by decide, fun op => by cases op <;> decide⟩
theorem witness_BlockStepChecksInOrder_retire :
    (en narrow 0 14 [(14, 7#8)]).pc.toNat % 2 = 0 ∧ (en narrow 0 14 [(14, 7#8)]).pc.toNat + 1 < narrow.memorySize ∧
    narrow.opcodeTag .jne = Memory.read (en narrow 0 14 [(14, 7#8)]).mem 14 := by decide

theorem witness_StepRunsTheDecodedInstruction :
    (st 0 254 [(254, 4#8), (255, 10#8)]).pc.toNat % 2 = 0 ∧
    decode Config.taken (Memory.read (st 0 254 [(254, 4#8), (255, 10#8)]).mem 254)
      (Memory.read (st 0 254 [(254, 4#8), (255, 10#8)]).mem 255) = .ok (.ldr 10) := ⟨by decide, rfl⟩

theorem witness_FullWidthNeverFetchRange : Config.taken.addrBits = Config.taken.archBits := by decide

theorem witness_NarrowAddressSpaceRunsOffTheEnd :
    narrow.addrBits < narrow.archBits ∧ (en narrow 1 14 []).pc.toNat + 2 = narrow.memorySize ∧
    (∀ a, Instr.add 0 ≠ .jmp a) ∧ (∀ a, Instr.add 0 ≠ .jne a) := ⟨by decide, by decide, by simp, by simp⟩

theorem witness_FaultRepeatsUnchanged : blockStep (en Config.taken 0 5 []) = .fault (.alignment 5) := by decide

theorem witness_StepDependsOnArchitecturalStateOnly :
    (en Config.taken 1 0 [(3, 0#8)]).acc = (en Config.taken 1 0 []).acc ∧
    (en Config.taken 1 0 [(3, 0#8)]).pc = (en Config.taken 1 0 []).pc ∧
    ∀ k, Memory.read (en Config.taken 1 0 [(3, 0#8)]).mem k = Memory.read (en Config.taken 1 0 []).mem k :=
  ⟨rfl, rfl, fun k => by simp [en, Memory.read, unlistedCell]⟩

theorem witness_DecodeOfEncodeIsTheInstruction :
    (Instr.jne 255).WellFormed Config.taken ∧ (Instr.jne 15).WellFormed narrow := by decide

theorem witness_EncodeOfDecodeMasksTheOperand : decode narrow 5#8 0x13#8 = .ok (.str 3) := by rfl

theorem witness_OperandBitsAboveAddressIgnored : (0x1A#8).toNat % 2 ^ narrow.addrBits = (0x0A#8).toNat % 2 ^ narrow.addrBits := by
  decide

theorem witness_DecoderConsumesTwoCells :
    (Instr.ldr 10).WellFormed Config.taken ∧
    [4#8, 10#8, 0#8] = (encode Config.taken (.ldr 10)).1 :: (encode Config.taken (.ldr 10)).2 :: [0#8] ∧
    [4#8].length < 2 ∧ decodeCells Config.taken [4#8, 10#8] = .ok (.ldr 10, []) :=
  ⟨by decide, by decide, by decide, rfl⟩

theorem witness_PlacedTableWordRunsNext : decodeTableWord 16 0x07FF = some (.jne 255) := by decide

theorem witness_CanonicalMemoriesAreEqual :
    Memory.wf ([(0, 4#8), (255, 1#8)] : Memory Config.taken) ∧
    ∀ k, k < 256 → Memory.read ([(0, 4#8), (255, 1#8)] : Memory Config.taken) k =
      Memory.read ([(0, 4#8), (255, 1#8)] : Memory Config.taken) k := ⟨by decide, fun _ _ => rfl⟩

theorem witness_RunLoopIteration_fault : blockStep (en Config.taken 0 255 []) = .fault (.alignment 255) := by decide
theorem witness_RunLoopIteration_breakpoint :
    blockStep (en Config.taken 0 254 []) = .retired (en Config.taken 0 0 []) ∧ breakpointAt [⟨0, nameA⟩] 0 = true := by decide
theorem witness_RunLoopIteration_goes_on :
    blockStep (en Config.taken 0 254 []) = .retired (en Config.taken 0 0 []) ∧ breakpointAt [⟨1, nameA⟩] 0 = false := by decide

theorem witness_RunCountsRetiredInstructions :
    run 0 (en Config.taken 0 0 []) = (.completed, en Config.taken 0 0 []) ∧
    run 1 (en Config.taken 0 1 []) = (.faulted (.alignment 1), en Config.taken 0 1 []) ∧
    (run 1 { (en Config.taken 0 0 []) with breakpoints := [⟨2, nameA⟩] }).1 = .atBreakpoint := by decide

theorem witness_RunIsMachineStepsWithoutBreakpoints : State.reset.breakpoints = [] := by decide

/-- One entry fills the smallest machine's table; the narrow machine's has room for more. -/
def oneEntry (c : Config) (address : Nat) : Engine c := { (en c 0 0 []) with breakpoints := [⟨address, nameA⟩] }

def twoEntries : Engine narrow := { (en narrow 0 0 []) with breakpoints := [⟨3, nameA⟩, ⟨15, nameB⟩] }

theorem witness_InsertChecksInOrder :
    tiny.maxInstructions ≤ (oneEntry tiny 0).breakpoints.length ∧
    (oneEntry narrow 3).breakpoints.length < narrow.maxInstructions ∧
    (∃ b ∈ (oneEntry narrow 3).breakpoints, b.address = maskA narrow 0x13) ∧
    (∀ b ∈ (oneEntry narrow 3).breakpoints, b.address ≠ maskA narrow 0x14) ∧
    (∃ b ∈ (oneEntry narrow 3).breakpoints, b.name = nameA) ∧
    (∀ b ∈ (oneEntry narrow 3).breakpoints, b.name ≠ nameB) := by decide

theorem witness_BreakpointOperationsKeepTable :
    BreakpointsWf narrow [⟨3, nameA⟩] ∧
    insertBreakpoint narrow [⟨3, nameA⟩] 15 nameB = .ok [⟨3, nameA⟩, ⟨15, nameB⟩] ∧
    deleteByAddress narrow [⟨3, nameA⟩] 0x13 = .ok [] ∧ deleteByName [⟨3, nameA⟩] nameA = .ok [] :=
  ⟨by decide, rfl, rfl, rfl⟩

theorem witness_InsertedBreakpointIsFound :
    insertBreakpoint tiny [] 3 nameA = .ok [⟨1, nameA⟩] ∧ (oneEntry tiny 1).breakpoints = [⟨1, nameA⟩] ∧
    blockStep { (oneEntry tiny 1) with mem := [(0, 6#8), (1, 1#8)] } =
      .retired { (oneEntry tiny 1) with mem := [(0, 6#8), (1, 1#8)], pc := 1 } ∧ 1 = maskA tiny 3 :=
  ⟨rfl, rfl, by decide, by decide⟩

theorem witness_LookupFindsTheOneEntry :
    BreakpointsWf narrow [⟨3, nameA⟩, ⟨15, nameB⟩] ∧ Breakpoint.mk 15 nameB ∈ [Breakpoint.mk 3 nameA, ⟨15, nameB⟩] ∧
    15 = maskA narrow 0x1F := by decide

theorem witness_DeletionIsStable :
    BreakpointsWf narrow twoEntries.breakpoints ∧
    (∀ b ∈ twoEntries.breakpoints, b.address ≠ maskA narrow 4) ∧
    (∀ b ∈ twoEntries.breakpoints, b.name ≠ ⟨"d", by decide⟩) ∧
    twoEntries.breakpoints = [⟨3, nameA⟩] ++ ⟨15, nameB⟩ :: [] ∧ 15 = maskA narrow 0x1F := by decide

theorem witness_ReadTransactionsChangeNothing : 255 < Config.taken.memorySize ∧ Config.taken.memorySize ≤ 256 := by decide

/-- One file for each clause of LoadRejectsBadFiles on the smallest machine, whose files have five lines and then breakpoints. -/
theorem witness_LoadRejectsBadFiles :
    (goodFile.take 4).length < 3 + tiny.memorySize ∧
    (∀ v : Int, 0 ≤ v → (goodFile.set 4 .malformed)[4]? ≠ some (.integer v)) ∧
    (goodFile.set 1 (.integer 256))[1]? = some (.integer 256) ∧ (archMaxVal 8 : Int) < 256 ∧
    (goodFile.set 2 (.integer 2))[2]? = some (.integer 2) ∧ (tiny.memorySize : Int) ≤ 2 ∧
    (goodFile.set 3 (.integer 256))[3]? = some (.integer 256) ∧
    (goodFile.set 5 (.breakpoint 2 nameA))[5]? = some (.breakpoint 2 nameA) ∧
    (∀ (a : Int) (n : BreakpointName), 0 ≤ a → a < tiny.memorySize → FileLine.breakpoint 2 nameA ≠ .breakpoint a n) ∧
    (goodFile ++ [.breakpoint 1 nameB])[5]? = some (.breakpoint 1 nameA) ∧
    (goodFile ++ [.breakpoint 1 nameB])[6]? = some (.breakpoint 1 nameB) := by
  refine ⟨by decide, by simp [goodFile], by decide, by decide, by decide, by decide, by decide, by decide, ?_, by decide,
    by decide⟩
  intro a n h0 h h'
  have h2 : a = 2 := by injection h' with e; exact e.symm
  have h3 : (tiny.memorySize : Int) = 2 := by decide
  omega

theorem witness_LoadedStateIsValidAndTheFiles : loadState goodFile (en tiny 0 0 []) = (.loaded, goodState) := by decide

/-- R141: a claim over every launch state, a load that succeeds, and a table to reset with. -/
theorem witness_LaunchClaimCoversLoadsAndResets :
    HoldsAtEveryLaunch (fun s : Engine tiny => s.pc.toNat < 2) ∧
    transact (.load goodFile) (en tiny 0 0 []) = (.loaded .loaded, goodState) ∧
    BreakpointsWf tiny goodState.breakpoints := ⟨fun _ h => h.1, by decide, by decide⟩

theorem test_reset_states_step_apart :
    accPc (step (st 0 0 [])) = some (0, 2) ∧ faultOf (step (st 0 0 [(0, 8#8)])) = some (.decode 0 8) := by decide

theorem witness_FailedLoadReportsZeroAndEmptiesTable :
    loadState [] (en tiny 0 0 []) = (.persistenceFault, (en tiny 0 0 []).afterFailedLoad) ∧
    LoadStatus.persistenceFault ≠ .loaded := ⟨rfl, by decide⟩

/-- R144: the status a failed load reports. -/
theorem test_failed_load_status : (loadState [] (en tiny 0 0 [])).1.code = 0 := by decide

theorem witness_SaveThenLoadReproducesState : goodState.Valid ∧ Memory.wf goodState.mem := by decide

theorem witness_EveryStepKeepsInvariant :
    (st 9 4 [(4, 5#8), (5, 30#8)]).toEngine.Inv ∧ accPcCell 30 (step (st 9 4 [(4, 5#8), (5, 30#8)])) = some (9, 6, 9) := by decide

theorem witness_EveryTransactionKeepsInvariant : goodState.Inv := by decide

theorem witness_ReachableStatesMeetInvariant :
    goodState.Inv ∧ Engine.Reachable goodState (transact (.run 1) goodState).2 := ⟨by decide, .next _ .start⟩

theorem witness_RetiredStepKeepsStateValid :
    Config.taken.addrBits = Config.taken.archBits ∧ (en Config.taken 0 254 []).Valid ∧
    blockStep (en Config.taken 0 254 []) = .retired (en Config.taken 0 0 []) := by decide

end Sys2Proof.Tests
end

section
/-! SUPPORT. The state family (10_state.md): what an execution leaves in each register and in each cell, the states a program
cannot tell apart, and the canonical form of a memory; then the family's statements. -/

namespace Sys2Proof.Machine

variable {c : Config}

/-! ## The net effect of each instruction -/

/-- The advance cancels what a taken jump subtracted, before any mask (R92). -/
@[simp] theorem jumpTarget_add_instructionSize (a : Nat) : jumpTarget a + instructionSize = a := Int.sub_add_cancel ..

/-- The masked exact sum of two values is their sum modulo `2^W` (R71). -/
@[simp] theorem maskW_toNat_add (x y : c.Cell) : maskW c ((x.toNat : Int) + y.toNat) = x + y := by
  rw [← Nat.cast_add, maskW_natCast, BitVec.ofNat_add, BitVec.ofNat_toNat, BitVec.ofNat_toNat, BitVec.setWidth_eq,
    BitVec.setWidth_eq]

/-- A program counter advanced by one instruction and masked (R14). -/
@[simp] theorem maskW_toNat_add_instructionSize (x : c.Cell) :
    maskW c ((x.toNat : Int) + instructionSize) = BitVec.ofNat c.archBits (x.toNat + 2) :=
  maskW_natCast c (x.toNat + 2)

/-- A JNE not taken writes nothing (R91). -/
theorem effectJne_of_acc_eq_zero {s : Engine c} (h : s.acc = 0) (a : Nat) : effectJne a s = s.exact :=
  if_neg (by simp [accNonZero, h])

/-- A taken JNE is JMP (R91). -/
theorem effectJne_of_acc_ne_zero {s : Engine c} (h : s.acc ≠ 0) (a : Nat) : effectJne a s = effectJmp a s :=
  if_pos (bne_iff_ne.mpr h)

/-- What an execution leaves in `acc`: only the data instructions other than STR write it (R12). -/
theorem execute_acc (i : Instr) (s : Engine c) :
    (execute i s).acc = match i with
      | .add a => s.acc + memoryOperand s a
      | .and a => s.acc &&& memoryOperand s a
      | .orr a => s.acc ||| memoryOperand s a
      | .xor a => s.acc ^^^ memoryOperand s a
      | .ldr a => memoryOperand s a
      | .str _ | .jmp _ | .jne _ => s.acc := by
  cases i with
  | add a => exact maskW_toNat_add _ _
  | jne a =>
    simp only [execute, effect, effectJne, commit_acc]
    split <;> exact maskW_toNat_self _
  | _ => exact maskW_toNat_self _

/-- What an execution leaves in `pc`: a jump's address, or the program counter advanced (R14, R90, R91). -/
theorem execute_pc (i : Instr) (s : Engine c) :
    (execute i s).pc = match i with
      | .jmp a => BitVec.ofNat c.archBits a
      | .jne a => if s.acc = 0 then BitVec.ofNat c.archBits (s.pc.toNat + 2) else BitVec.ofNat c.archBits a
      | _ => BitVec.ofNat c.archBits (s.pc.toNat + 2) := by
  cases i with
  | jmp a => simp [execute, effect, effectJmp]
  | jne a =>
    by_cases h : s.acc = 0
    · simp [execute, effect, effectJne_of_acc_eq_zero, h]
    · refine Eq.trans ?_ (if_neg h).symm
      simp [execute, effect, effectJne_of_acc_ne_zero h, effectJmp]
  | _ => exact maskW_toNat_add_instructionSize _

/-- Every instruction but JMP and a taken JNE advances the program counter (R14). -/
theorem execute_pc_of_fallThrough {i : Instr} {s : Engine c} (hjmp : ∀ a, i ≠ .jmp a)
    (hjne : (∃ a, i = .jne a) → s.acc = 0) :
    (execute i s).pc.toNat = (s.pc.toNat + 2) % 2 ^ c.archBits := by
  rw [execute_pc, ← BitVec.toNat_ofNat]
  cases i with
  | jmp a => exact absurd rfl (hjmp a)
  | jne a => exact congrArg BitVec.toNat (if_pos (hjne ⟨a, rfl⟩))
  | _ => rfl

/-- What a store leaves in each cell (R33). -/
theorem read_memWrite (m : Memory c) (a : Nat) (v : Int) (k : Nat) :
    Memory.read (memWrite m a v) k = if k = maskA c a then maskW c v else Memory.read m k :=
  read_write m _ _ k

/-! ## The statements on pc, memory and acc -/

/-- Settles O10, by the program counter of an execution that falls through. -/
theorem fallThroughAdvancesModuloWord : Obligations.FallThroughAdvancesModuloWord := by
  intro c s i hjmp hjne
  have hpc := execute_pc_of_fallThrough hjmp hjne
  refine ⟨hpc, fun hwrap => BitVec.eq_of_toNat_eq ?_⟩
  simp [hpc, hwrap]

/-- Settles O14: every arm is the configuration-wide execution, whose memory changes under STR alone. -/
theorem onlyStrWritesMemory : Obligations.OnlyStrWritesMemory := by
  intro s t i hstr hexec
  rw [exec_eq_execute] at hexec
  injection hexec with ht
  subst ht
  change (execute i s.toEngine).mem = s.mem
  rw [execute_mem]
  cases i with
  | str a => exact absurd rfl (hstr a)
  | _ => rfl

/-- Settles O15. An execution's memory and host state do not involve `acc` under LDR and JMP, so the two states compared differ
at most in the `acc` that JMP carries along. -/
theorem accumulatorReadersAndWriters : Obligations.AccumulatorReadersAndWriters := by
  intro c s a x
  have hldr : execute (.ldr a) { s with acc := x } = execute (.ldr a) s := rfl
  have hjmp : (execute (.jmp a) { s with acc := x }).acc = x := execute_acc ..
  refine ⟨execute_acc .., execute_acc .., execute_acc .., hldr, ?_⟩
  calc execute (.jmp a) { s with acc := x }
      = { execute (.jmp a) s with acc := (execute (.jmp a) { s with acc := x }).acc } := rfl
    _ = { execute (.jmp a) s with acc := x } := by rw [hjmp]

/-! ## The last slot of a narrow address space -/

/-- An even program counter whose operand cell is outside the memory does not fetch (R104). -/
theorem blockStep_of_fetchRange {s : Engine c} (heven : s.pc.toNat % 2 = 0) (hend : c.memorySize ≤ s.pc.toNat + 1) :
    blockStep s = .fault (.fetchRange s.pc.toNat) := by
  rw [blockStep_fault_iff]
  obtain ⟨hodd, -⟩ | ⟨-, -, hfault⟩ | ⟨-, hlt, -⟩ := fetchDecode_cases s
  · omega
  · exact hfault
  · omega

/-- With `A < W` a program counter can hold `N` (R17). -/
theorem memorySize_lt (h : c.addrBits < c.archBits) : c.memorySize < 2 ^ c.archBits :=
  Nat.pow_lt_pow_right (by decide) h

/-- Settles O22: `N` fits in the program counter, so the advance reaches it unmasked, and `N` is even. -/
theorem narrowAddressSpaceRunsOffTheEnd : Obligations.NarrowAddressSpaceRunsOffTheEnd := by
  intro c hnarrow s i hlast hjmp hjne
  have hpc : (execute i s).pc.toNat = c.memorySize := by
    rw [execute_pc_of_fallThrough hjmp fun ⟨a, ha⟩ => absurd ha (hjne a), hlast, Nat.mod_eq_of_lt (memorySize_lt hnarrow)]
  have heven := memorySize_even c
  refine ⟨hpc, ?_⟩
  rw [blockStep_of_fetchRange (by omega) (by omega), hpc]

/-! ## States a program cannot tell apart -/

/-- Two states with the same registers whose cells read alike, however their memories list them (R21, R23). -/
structure Engine.Alike (s t : Engine c) : Prop where
  acc : s.acc = t.acc
  pc : s.pc = t.pc
  read : ∀ k, Memory.read s.mem k = Memory.read t.mem k

theorem Engine.Alike.memoryOperand {s t : Engine c} (h : s.Alike t) (a : Nat) : memoryOperand s a = memoryOperand t a :=
  h.read _

theorem Engine.Alike.fetchDecode {s t : Engine c} (h : s.Alike t) : fetchDecode s = fetchDecode t := by
  have hfetch : fetch s = fetch t := by simp only [fetch, h.pc, h.read]
  simp only [Machine.fetchDecode, h.pc, hfetch]

/-- An execution keeps alike states alike: it reads them through `acc`, `pc` and the cells only. -/
theorem Engine.Alike.execute {s t : Engine c} (h : s.Alike t) (i : Instr) : (execute i s).Alike (execute i t) where
  acc := by simp only [execute_acc, h.acc, h.memoryOperand]
  pc := by simp only [execute_pc, h.acc, h.pc]
  read k := by
    rw [execute_mem, execute_mem]
    cases i with
    | str a => simp only [read_memWrite, h.acc, h.read]
    | _ => exact h.read k

/-- Settles O25: alike states fetch and decode the same, and an execution keeps them alike. -/
theorem stepDependsOnArchitecturalStateOnly : Obligations.StepDependsOnArchitecturalStateOnly := by
  intro c s t hacc hpc hread
  have h : s.Alike t := ⟨hacc, hpc, hread⟩
  simp only [blockStep, h.fetchDecode]
  cases fetchDecode t with
  | ok i =>
    obtain ⟨hacc', hpc', hread'⟩ := h.execute i
    exact ⟨hacc', hpc', hread'⟩
  | error r => rfl

/-! ## The canonical form -/

/-- In a memory listed by rising addresses, a listed cell reads as its entry. -/
theorem read_of_mem {m : Memory c} (h : m.Pairwise fun p q => p.1 < q.1) {k : Nat} {v : c.Cell} (hmem : (k, v) ∈ m) :
    Memory.read m k = v := by
  induction m with
  | nil => simp at hmem
  | cons entry m ih =>
    obtain ⟨j, x⟩ := entry
    obtain ⟨hlt, htail⟩ := List.pairwise_cons.mp h
    rw [read_cons]
    rcases List.mem_cons.mp hmem with heq | hmem
    · injection heq with hk hv
      rw [if_pos hk, hv]
    · have hk : k ≠ j := (hlt _ hmem).ne'
      rw [if_neg hk, ih htail hmem]

/-- A cell that does not read as an unlisted one is listed, with what it reads as. -/
theorem mem_of_read_ne {m : Memory c} {k : Nat} (h : Memory.read m k ≠ unlistedCell c) : (k, Memory.read m k) ∈ m := by
  induction m with
  | nil => exact absurd rfl h
  | cons entry m ih =>
    obtain ⟨j, x⟩ := entry
    rw [read_cons] at h ⊢
    split
    case isTrue hk => exact List.mem_cons.mpr (.inl (by rw [hk]))
    case isFalse hk =>
      rw [if_neg hk] at h
      exact List.mem_cons_of_mem _ (ih h)

/-- The entries of a canonical memory are exactly the cells of the space that do not read as an unlisted one. -/
theorem mem_iff_read {m : Memory c} (h : Memory.wf m) (k : Nat) (v : c.Cell) :
    (k, v) ∈ m ↔ k < c.memorySize ∧ Memory.read m k = v ∧ v ≠ unlistedCell c := by
  obtain ⟨hrising, hentry⟩ := h
  constructor
  · intro hmem
    obtain ⟨hk, hv⟩ := hentry _ hmem
    exact ⟨hk, read_of_mem hrising hmem, hv⟩
  · rintro ⟨-, rfl, hv⟩
    exact mem_of_read_ne hv

/-- Two lists of cells that rise strictly by address and have the same entries are the same list. -/
theorem memory_eq_of_mem_iff {m m' : Memory c} (h : m.Pairwise fun p q => p.1 < q.1) (h' : m'.Pairwise fun p q => p.1 < q.1)
    (hiff : ∀ entry, entry ∈ m ↔ entry ∈ m') : m = m' :=
  have : Std.Irrefl fun p q : Nat × c.Cell => p.1 < q.1 := ⟨fun p => lt_irrefl p.1⟩
  have : Std.Antisymm fun p q : Nat × c.Cell => p.1 < q.1 := ⟨fun _ _ hpq hqp => absurd hpq hqp.asymm⟩
  h.eq_of_mem_iff h' hiff

/-- Settles O36: the cells of the space fix the entries, and their rising order fixes the list. -/
theorem canonicalMemoriesAreEqual : Obligations.CanonicalMemoriesAreEqual := by
  intro c m m' hwf hwf' hread
  refine memory_eq_of_mem_iff hwf.1 hwf'.1 fun ⟨k, v⟩ => ?_
  rw [mem_iff_read hwf, mem_iff_read hwf']
  exact and_congr_right fun hk => by rw [hread k hk]

end Sys2Proof.Machine
end

section
/-! SUPPORT. The memory family (20_memory.md): what a read and a fetch see after a write, a sequence of writes and a store, and
the invariant along an execution and a retired step; then the family's statements. -/

namespace Sys2Proof.Machine

variable {c : Config}

/-! ## What a read sees -/

/-- What a data access reads after a write: both addresses pass through the mask (R32, R33). -/
theorem memRead_memWrite (m : Memory c) (a b : Nat) (v : Int) :
    memRead (memWrite m a v) b = if maskA c b = maskA c a then maskW c v else memRead m b :=
  read_memWrite m a v (maskA c b)

/-- What a cell holds after a store: the value stored is `acc`, which its mask leaves as it is (R33, R81). -/
theorem read_execute_str (a : Nat) (s : Engine c) (k : Nat) :
    Memory.read (execute (.str a) s).mem k = if k = maskA c a then s.acc else Memory.read s.mem k := by
  rw [execute_mem, read_memWrite, maskW_toNat_self]

/-! ## The invariant along a step -/

/-- An execution keeps the invariant: it writes memory through the memory unit alone and leaves the table (R33, R115). -/
theorem execute_keeps_inv (i : Instr) {s : Engine c} (h : s.Inv) : (execute i s).Inv := by
  obtain ⟨hmem, htable⟩ := h
  exact ⟨execute_keeps_wf i hmem, htable⟩

/-- Counting a retired step concerns neither part of the invariant (R112). -/
theorem countRetired_keeps_inv {s : Engine c} (h : s.Inv) : s.countRetired.Inv := h

/-! ## The statements -/

/-- Settles O56: a step that answers a next state is an execution, counted. -/
theorem everyStepKeepsInvariant : Obligations.EveryStepKeepsInvariant := by
  intro s t hinv hstep
  obtain ⟨i, -, ht⟩ := (step_next_iff s t).mp hstep
  rw [ht]
  exact ⟨countRetired_keeps_inv (execute_keeps_inv i hinv), rfl, rfl⟩

/-- Settles O34, by the read after a write and the number of a masked value. -/
theorem memoryWriteThenRead : Obligations.MemoryWriteThenRead := by
  intro c m a b v
  rw [memRead_memWrite]
  split
  · exact maskW_toNat c v
  · rfl

/-- Settles O35, by induction on the writes from the last one back: the last write decides the cell it masks to, and every
other cell reads as the writes before it left it. -/
theorem readGivesMostRecentWrite : Obligations.ReadGivesMostRecentWrite := by
  intro c m writes k
  induction writes using List.reverseRecOn with
  | nil => rfl
  | append_singleton earlier w ih =>
    rw [List.foldl_concat, read_memWrite, List.reverse_concat, List.find?_cons]
    by_cases hk : maskA c w.1 = k
    · rw [if_pos hk.symm, beq_iff_eq.mpr hk]
    · rw [if_neg (Ne.symm hk), beq_false_of_ne hk]
      exact ih

/-- Settles O37: a fetch reads two cells, and each reads as the store left it. -/
theorem nextFetchSeesTheStore : Obligations.NextFetchSeesTheStore := by
  intro c s a
  exact Prod.ext (read_execute_str a s _) (read_execute_str a s _)

end Sys2Proof.Machine
end

section
/-! SUPPORT. The encoding family (30_encoding.md): what the decoder answers and when it refuses, what the next step finds where a
table word was placed, and what an assembly line is read as; then the family's statements. -/

namespace Sys2Proof.Machine

variable {c : Config}

/-! ## What the decoder answers -/

/-- The operand reaches the instruction through its mask alone (R52, R53). -/
theorem decode_congr_maskA {x y : c.Cell} (h : maskA c x.toNat = maskA c y.toNat) (b : c.Cell) :
    decode c b x = decode c b y := by
  simp only [decode, h]

/-- The decoder answers an instruction exactly under a tag (R55, R57). -/
theorem exists_decode_ok_iff (b x : c.Cell) : (∃ i, decode c b x = .ok i) ↔ ∃ op, c.opcodeTag op = b := by
  constructor
  · rintro ⟨i, hdecode⟩
    obtain ⟨htag, -⟩ := (decode_ok_iff c b x i).mp hdecode
    exact ⟨i.opcode, htag⟩
  · rintro ⟨op, rfl⟩
    exact ⟨Instr.make op (maskA c x.toNat), (decode_ok_iff ..).mpr ⟨by rw [make_opcode], make_address ..⟩⟩

/-- A refusal always names the opcode cell, so the decoder refuses exactly where it answers no instruction (R55). -/
theorem decode_unknownOpcode_iff (b x : c.Cell) :
    decode c b x = .error (.unknownOpcode b.toNat) ↔ ¬ ∃ i, decode c b x = .ok i := by
  cases hdecode : decode c b x with
  | ok i => simp
  | error e => simp [decode_error c b x e hdecode]

/-- From two cells or more the sequence decoder answers what the first two decode to, and all that follows them (R50, R58). -/
theorem decodeCells_cons_cons_eq_ok (b x : c.Cell) (after rest : List c.Cell) (i : Instr) :
    decodeCells c (b :: x :: after) = .ok (i, rest) ↔ decode c b x = .ok i ∧ after = rest := by
  rw [decodeCells]
  cases decode c b x with
  | ok j => simp [Except.map]
  | error e => simp [Except.map]

/-- The tags taken are the numbers below 8 (R8, D4). -/
theorem exists_listedTag_iff (b : Word 8) : (∃ op, listedTag op = b) ↔ b.toNat < 8 := by
  constructor
  · rintro ⟨op, rfl⟩
    cases op <;> decide
  · intro hlt
    obtain ⟨op, hop⟩ : ∃ op, (listedTag op).toNat = b.toNat := by
      generalize b.toNat = n at hlt
      interval_cases n
      exacts [⟨.add, rfl⟩, ⟨.and, rfl⟩, ⟨.orr, rfl⟩, ⟨.xor, rfl⟩, ⟨.ldr, rfl⟩, ⟨.str, rfl⟩, ⟨.jmp, rfl⟩, ⟨.jne, rfl⟩]
    exact ⟨op, BitVec.eq_of_toNat_eq hop⟩

/-- The operand cell of an encoded well-formed instruction masks to its address: `A ≤ W`, so the cell holds it whole (R52). -/
theorem maskA_encode {i : Instr} (h : i.WellFormed c) : maskA c (encode c i).2.toNat = i.address := by
  obtain ⟨-, hoperand⟩ := Laws.EncodedCells.of_encode i c
  rw [hoperand h, maskA_of_lt h]

/-! ## The statements on the decoder and the encoder -/

/-- Settles O26: the opcode cell is the instruction's own tag, and the operand cell masks back to its address. -/
theorem decodeOfEncodeIsTheInstruction : Obligations.DecodeOfEncodeIsTheInstruction := by
  intro c i hwf
  exact (decode_ok_iff ..).mpr ⟨rfl, (maskA_encode hwf).symm⟩

/-- Settles O27, by what a pair that decodes holds. -/
theorem encodeOfDecodeMasksTheOperand : Obligations.EncodeOfDecodeMasksTheOperand := by
  intro c b x i hdecode
  obtain ⟨htag, haddress⟩ := (decode_ok_iff c b x i).mp hdecode
  have hwf : i.WellFormed c := lt_of_eq_of_lt haddress (maskA_lt c x.toNat)
  exact ⟨hwf, by rw [encode, htag, haddress]⟩

/-- Settles O28: in every configuration by when the decoder answers an instruction, and with the tags taken by their range. -/
theorem decoderRejectsExactlyNonTags : Obligations.DecoderRejectsExactlyNonTags := by
  refine ⟨fun c b x => ⟨?_, exists_decode_ok_iff b x⟩, fun b x => ?_⟩
  · rw [decode_unknownOpcode_iff, exists_decode_ok_iff, not_exists]
  · exact (exists_decode_ok_iff b x).trans (exists_listedTag_iff b)

/-- Settles O29: operands equal modulo `2^A` have one mask. -/
theorem operandBitsAboveAddressIgnored : Obligations.OperandBitsAboveAddressIgnored := by
  intro c b x y hmod
  exact decode_congr_maskA hmod b

/-- Settles O30. A sequence of two cells or more is decoded by its first two, and its rest is handed on. -/
theorem decoderConsumesTwoCells : Obligations.DecoderConsumesTwoCells := by
  intro c cells
  refine ⟨fun i rest hwf hcells => ?encoded, fun hshort => ?short, fun i rest hdecode => ?consumed⟩
  case encoded =>
    rw [hcells, decodeCells_cons_cons_eq_ok]
    exact ⟨decodeOfEncodeIsTheInstruction c i hwf, rfl⟩
  case short =>
    match cells, hshort with
    | [], _ => rfl
    | [_], _ => rfl
  case consumed =>
    match cells with
    | [] | [_] => cases hdecode
    | b :: x :: after =>
      obtain ⟨-, rfl⟩ := (decodeCells_cons_cons_eq_ok ..).mp hdecode
      rfl

/-- Settles O31, by evaluating the decoder on each of the nine words. -/
theorem tableWordsDecode : Obligations.TableWordsDecode := by
  unfold Obligations.TableWordsDecode
  decide

/-! ## The table word that was placed -/

/-- A table value's instruction is what its two cells decode to (R51). -/
theorem decodeTableWord_eq_some (nbits w : Nat) (i : Instr) :
    decodeTableWord nbits w = some i ↔ decode Config.taken (tableCells w).1 (tableCells w).2 = .ok i := by
  unfold decodeTableWord
  cases decode Config.taken (tableCells w).1 (tableCells w).2 with
  | ok j => simp [Except.toOption]
  | error e => simp [Except.toOption]

/-- Clearing the low bit stays within the word (R102). -/
theorem evenPc_toNat (pc : c.Cell) : (evenPc pc).toNat = pc.toNat - pc.toNat % 2 :=
  BitVec.toNat_ofNat .. |>.trans (Nat.mod_eq_of_lt (lt_of_le_of_lt (Nat.sub_le ..) pc.isLt))

/-- The next fetch finds the two cells that were placed: they stand at neighbouring addresses, so neither overwrites the other
(R36). -/
theorem fetch_placeCells (s : Engine c) (cells : c.Cell × c.Cell) : fetch (placeCells s cells) = cells := by
  simp [fetch, placeCells, read_write]

/-- In the taken configuration an even program counter is below 255, so placed cells always pass the checks before decoding. -/
theorem fetchDecode_placeCells (s : Engine Config.taken) (cells : Config.taken.Cell × Config.taken.Cell) (i : Instr) :
    fetchDecode (placeCells s cells) = .ok i ↔ decode Config.taken cells.1 cells.2 = .ok i := by
  have hpc : (placeCells s cells).pc.toNat = s.pc.toNat - s.pc.toNat % 2 := evenPc_toNat s.pc
  have hlt := taken_toNat_lt s.pc
  rw [fetchDecode_ok_iff, fetch_placeCells, taken_memorySize]
  exact ⟨fun ⟨_, _, hdecode⟩ => hdecode, fun hdecode => ⟨by omega, by omega, hdecode⟩⟩

/-- Settles O32: the step after the placing decodes the placed cells, executes the instruction and counts it. -/
theorem placedTableWordRunsNext : Obligations.PlacedTableWordRunsNext := by
  intro s w i hword
  have hdecode := (decodeTableWord_eq_some 16 w i).mp hword
  have hfetch : fetchDecode (s.withFetchWord 16 w).toEngine = .ok i := (fetchDecode_placeCells ..).mpr hdecode
  exact ⟨_, exec_eq_execute .., (step_next_iff ..).mpr ⟨i, hfetch, rfl⟩⟩

/-! ## The assembly line -/

/-- A digit is read as the number the library gives it. -/
theorem digitValue_of_isDigit {ch : Char} (h : ch.isDigit = true) : digitValue ch = some (ch.toNat - '0'.toNat) :=
  if_pos (by simpa [Char.isDigit, Char.le_def] using h)

/-- Reading digits is the library's reading of them, most significant first. -/
theorem readDigits_eq_ofDigitChars {digits : List Char} (h : ∀ ch ∈ digits, ch.isDigit = true) (acc : Nat) :
    readDigits acc digits = some (Nat.ofDigitChars 10 digits acc) := by
  induction digits generalizing acc with
  | nil => rfl
  | cons ch rest ih =>
    obtain ⟨hch, hrest⟩ := List.forall_mem_cons.mp h
    rw [readDigits, digitValue_of_isDigit hch, Option.bind_some, ih hrest, Nat.ofDigitChars_cons]

/-- Any text with a first digit is read from 0 (R59). -/
theorem readDecimal_of_ne_nil {digits : List Char} (h : digits ≠ []) : readDecimal digits = readDigits 0 digits := by
  cases digits with
  | nil => exact absurd rfl h
  | cons ch rest => rfl

/-- A number written in decimal is read back as itself (R59). -/
theorem readDecimal_toDigits (n : Nat) : readDecimal (Nat.toDigits 10 n) = some n := by
  have hdigit : ∀ ch ∈ Nat.toDigits 10 n, ch.isDigit = true := fun ch hmem =>
    Nat.isDigit_of_mem_toDigits (by decide) (by decide) hmem
  calc readDecimal (Nat.toDigits 10 n)
      = readDigits 0 (Nat.toDigits 10 n) := readDecimal_of_ne_nil Nat.toDigits_ne_nil
    _ = some (Nat.ofDigitChars 10 (Nat.toDigits 10 n) 0) := readDigits_eq_ofDigitChars hdigit 0
    _ = some n := by rw [Nat.ofDigitChars_toDigits (by decide) (by decide)]

/-- A mnemonic names its opcode (R54). -/
theorem opcodeNamed_mnemonicText (op : Opcode) : opcodeNamed (mnemonicText op) = some op := by cases op <;> decide

/-- A line that starts with a mnemonic and a space is decided by what its digits are read as (R59). -/
theorem assembleLine_mnemonicText (c : Config) (op : Opcode) (digits : List Char) :
    assembleLine c (mnemonicText op ++ ' ' :: digits) = (readDecimal digits).bind fun address =>
      if address < 2 ^ c.archBits then some (c.opcodeTag op, BitVec.ofNat c.archBits address) else none := by
  obtain ⟨a, b, d, htext⟩ : ∃ a b d, mnemonicText op = [a, b, d] := by cases op <;> exact ⟨_, _, _, rfl⟩
  have hnamed := opcodeNamed_mnemonicText op
  rw [htext] at hnamed ⊢
  simp [assembleLine, hnamed]

/-- Settles O33: the line's mnemonic names the instruction's opcode, and its digits are read back as the address. -/
theorem assemblyLineGivesTheCells : Obligations.AssemblyLineGivesTheCells := by
  intro c i
  rw [assemblyText, assembleLine_mnemonicText, readDecimal_toDigits]
  rfl

end Sys2Proof.Machine
end

section
/-! SUPPORT. The ALU family (40_alu.md): the state each of the four ALU instructions leaves, and its outcome on the machine; then
the family's statements. -/

namespace Sys2Proof.Machine

variable {c : Config}

/-! ## The state an ALU instruction leaves -/

/-- An execution that keeps memory is told by its two registers: nothing else is the block's to change (R70, R75). -/
theorem execute_eq_of_registers {i : Instr} {s : Engine c} {x p : c.Cell} (hacc : (execute i s).acc = x)
    (hpc : (execute i s).pc = p) (hmem : (execute i s).mem = s.mem) : execute i s = { s with acc := x, pc := p } :=
  calc execute i s
      = { s with acc := (execute i s).acc, pc := (execute i s).pc, mem := (execute i s).mem } := rfl
    _ = { s with acc := x, pc := p } := by rw [hacc, hpc, hmem]

/-- ADD's net effect (R71). -/
theorem execute_add (s : Engine c) (a : Nat) : execute (.add a) s =
    { s with acc := s.acc + memoryOperand s a, pc := BitVec.ofNat c.archBits (s.pc.toNat + 2) } :=
  execute_eq_of_registers (execute_acc ..) (execute_pc ..) (execute_mem ..)

/-- AND's net effect (R72). -/
theorem execute_and (s : Engine c) (a : Nat) : execute (.and a) s =
    { s with acc := s.acc &&& memoryOperand s a, pc := BitVec.ofNat c.archBits (s.pc.toNat + 2) } :=
  execute_eq_of_registers (execute_acc ..) (execute_pc ..) (execute_mem ..)

/-- ORR's net effect (R73). -/
theorem execute_orr (s : Engine c) (a : Nat) : execute (.orr a) s =
    { s with acc := s.acc ||| memoryOperand s a, pc := BitVec.ofNat c.archBits (s.pc.toNat + 2) } :=
  execute_eq_of_registers (execute_acc ..) (execute_pc ..) (execute_mem ..)

/-- XOR's net effect (R74). -/
theorem execute_xor (s : Engine c) (a : Nat) : execute (.xor a) s =
    { s with acc := s.acc ^^^ memoryOperand s a, pc := BitVec.ofNat c.archBits (s.pc.toNat + 2) } :=
  execute_eq_of_registers (execute_acc ..) (execute_pc ..) (execute_mem ..)

/-- The machine answers the state the configuration-wide execution leaves: an instruction cannot fault once it runs (R75). -/
theorem exec_eq_of_execute {i : Instr} {s : State} {t : Engine Config.taken} (h : execute i s.toEngine = t) :
    exec i s = .next { s with toEngine := t } := by
  rw [exec_eq_execute, h]

/-! ## The statements on the ALU -/

/-- Settles O9, by what each instruction leaves in `acc` and the laws of the three operands under each operation. -/
theorem aluCornerOperands : Obligations.AluCornerOperands := by
  intro c s a
  have hadd : (execute (.add a) s).acc = s.acc + Memory.read s.mem (maskA c a) := execute_acc ..
  have hand : (execute (.and a) s).acc = s.acc &&& Memory.read s.mem (maskA c a) := execute_acc ..
  have horr : (execute (.orr a) s).acc = s.acc ||| Memory.read s.mem (maskA c a) := execute_acc ..
  have hxor : (execute (.xor a) s).acc = s.acc ^^^ Memory.read s.mem (maskA c a) := execute_acc ..
  rw [hadd, hand, horr, hxor]
  refine ⟨fun hzero => ?_, fun hones => ?_, fun hself => ?_⟩
  · rw [hzero]
    exact ⟨BitVec.add_zero _, BitVec.and_zero, BitVec.or_zero, BitVec.xor_zero⟩
  · have hdecrement : s.acc + BitVec.allOnes c.archBits = s.acc - 1 :=
      calc s.acc + BitVec.allOnes c.archBits
          = s.acc + -1#c.archBits := by rw [BitVec.neg_one_eq_allOnes]
        _ = s.acc - 1 := (BitVec.sub_eq_add_neg ..).symm
    rw [hones]
    exact ⟨hdecrement, BitVec.and_allOnes, BitVec.or_allOnes, BitVec.xor_allOnes⟩
  · rw [hself]
    exact BitVec.xor_self

/-- Settles O1; the sum of two words is the word of the exact sum, by definition. -/
theorem addGivesSumModuloWord : Obligations.AddGivesSumModuloWord :=
  ⟨fun _ => execute_add, fun s a => exec_eq_of_execute (execute_add s.toEngine a), rfl⟩

/-- Settles O2, by AND's net effect and its outcome on the machine. -/
theorem andGivesBitwiseAnd : Obligations.AndGivesBitwiseAnd :=
  ⟨fun _ => execute_and, fun s a => exec_eq_of_execute (execute_and s.toEngine a), rfl⟩

/-- Settles O3, by ORR's net effect and its outcome on the machine. -/
theorem orrGivesBitwiseOr : Obligations.OrrGivesBitwiseOr :=
  ⟨fun _ => execute_orr, fun s a => exec_eq_of_execute (execute_orr s.toEngine a), rfl⟩

/-- Settles O4, by XOR's net effect and its outcome on the machine. -/
theorem xorGivesBitwiseXor : Obligations.XorGivesBitwiseXor :=
  ⟨fun _ => execute_xor, fun s a => exec_eq_of_execute (execute_xor s.toEngine a), rfl⟩

end Sys2Proof.Machine
end

section
/-! SUPPORT. The load and store family (41_load_store.md): the state LDR and STR leave, with what each cell reads as after a
store; then the family's statements. -/

namespace Sys2Proof.Machine

variable {c : Config}

/-! ## The state a load or a store leaves -/

/-- LDR's net effect (R80). -/
theorem execute_ldr (s : Engine c) (a : Nat) : execute (.ldr a) s =
    { s with acc := memoryOperand s a, pc := BitVec.ofNat c.archBits (s.pc.toNat + 2) } :=
  execute_eq_of_registers (execute_acc ..) (execute_pc ..) (execute_mem ..)

/-- STR's net effect: the one execution that leaves `acc` and not memory as it was (R81). -/
theorem execute_str (s : Engine c) (a : Nat) : execute (.str a) s =
    { s with mem := memWrite s.mem a s.acc.toNat, pc := BitVec.ofNat c.archBits (s.pc.toNat + 2) } := by
  have hacc : (execute (.str a) s).acc = s.acc := execute_acc ..
  have hpc : (execute (.str a) s).pc = BitVec.ofNat c.archBits (s.pc.toNat + 2) := execute_pc ..
  have hmem : (execute (.str a) s).mem = memWrite s.mem a s.acc.toNat := execute_mem ..
  calc execute (.str a) s
      = { s with acc := (execute (.str a) s).acc, pc := (execute (.str a) s).pc, mem := (execute (.str a) s).mem } := rfl
    _ = { s with mem := memWrite s.mem a s.acc.toNat, pc := BitVec.ofNat c.archBits (s.pc.toNat + 2) } := by
      rw [hacc, hpc, hmem]

/-- STR's net effect told by what the cells read as: the memory it leaves differs from the old one in one cell (R81). -/
theorem exists_memory_of_execute_str (s : Engine c) (a : Nat) : ∃ m : Memory c,
    execute (.str a) s = { s with mem := m, pc := BitVec.ofNat c.archBits (s.pc.toNat + 2) } ∧
    Memory.read m (maskA c a) = s.acc ∧ ∀ k, k ≠ maskA c a → Memory.read m k = Memory.read s.mem k := by
  refine ⟨memWrite s.mem a s.acc.toNat, execute_str s a, ?_, fun k hk => ?_⟩
  · rw [read_memWrite, if_pos rfl, maskW_toNat_self]
  · rw [read_memWrite, if_neg hk]

/-! ## The statements on the load and the store -/

/-- Settles O6: the memory STR leaves in every configuration is the one the machine answers with. -/
theorem strStoresAccumulator : Obligations.StrStoresAccumulator := by
  refine ⟨fun _ => exists_memory_of_execute_str, fun s a => ?_, rfl⟩
  obtain ⟨m, hexecute, hcell, hother⟩ := exists_memory_of_execute_str s.toEngine a
  exact ⟨m, exec_eq_of_execute hexecute, hcell, hother⟩

/-- Settles O5, by LDR's net effect and its outcome on the machine. -/
theorem ldrGivesTheCell : Obligations.LdrGivesTheCell :=
  ⟨fun _ => execute_ldr, fun s a => exec_eq_of_execute (execute_ldr s.toEngine a), rfl⟩

end Sys2Proof.Machine
end

section
/-! SUPPORT. The jump family (42_jump.md): the state JMP and JNE leave, the target as `pc` holds it, and the step after a jump
to an odd address; then the family's statements. -/

namespace Sys2Proof.Machine

variable {c : Config}

/-! ## The state a jump leaves -/

/-- An address of the space fits in the program counter: `A ≤ W` (R90). -/
theorem toNat_ofNat_of_lt_memorySize {a : Nat} (h : a < c.memorySize) : (BitVec.ofNat c.archBits a).toNat = a :=
  (BitVec.toNat_ofNat ..).trans (Nat.mod_eq_of_lt (lt_of_lt_of_le h (memorySize_le c)))

/-- JMP's net effect (R90). -/
theorem execute_jmp (s : Engine c) (a : Nat) : execute (.jmp a) s = { s with pc := BitVec.ofNat c.archBits a } :=
  execute_eq_of_registers (execute_acc ..) (execute_pc ..) (execute_mem ..)

/-- JNE's net effect (R91). -/
theorem execute_jne (s : Engine c) (a : Nat) : execute (.jne a) s =
    { s with pc := if s.acc = 0 then BitVec.ofNat c.archBits (s.pc.toNat + 2) else BitVec.ofNat c.archBits a } :=
  execute_eq_of_registers (execute_acc ..) (execute_pc ..) (execute_mem ..)

/-- Where JMP leaves the program counter, for an address of the space (R92). -/
theorem execute_jmp_pc_toNat {a : Nat} (h : a < c.memorySize) (s : Engine c) : (execute (.jmp a) s).pc.toNat = a := by
  rw [execute_jmp, toNat_ofNat_of_lt_memorySize h]

/-- A taken JNE does what JMP does: their effects are the same (R91). -/
theorem execute_jne_of_acc_ne_zero {s : Engine c} (h : s.acc ≠ 0) (a : Nat) : execute (.jne a) s = execute (.jmp a) s :=
  congrArg s.commit (effectJne_of_acc_ne_zero h a)

/-! ## An odd program counter -/

/-- Nothing is fetched at an odd program counter: alignment is the first check (R102, R105). -/
theorem fetchDecode_of_pc_odd {s : Engine c} (h : s.pc.toNat % 2 = 1) :
    fetchDecode s = .error (.alignment s.pc.toNat) := by
  obtain ⟨-, hfault⟩ | ⟨heven, -⟩ | ⟨heven, -⟩ := fetchDecode_cases s
  · exact hfault
  · omega
  · omega

/-- An instruction that leaves an odd program counter retires all the same; it is the next step that faults (R93, R102). -/
theorem exec_next_step_alignment {i : Instr} {s : State} {a : Nat} (hpc : (execute i s.toEngine).pc.toNat = a)
    (hodd : a % 2 = 1) : ∃ t, exec i s = .next t ∧ step t = .fault (.alignment a) := by
  subst hpc
  exact ⟨_, exec_eq_execute i s, (step_fault_iff ..).mpr (fetchDecode_of_pc_odd hodd)⟩

/-! ## The statements on the jumps -/

/-- Settles O11: the advance takes the effect's exact `a - 2` back to `a`, and a JNE not taken falls through. -/
theorem jumpNetEffectIsExact : Obligations.JumpNetEffectIsExact := by
  intro c s a ha
  have heffect : (effect (.jmp a) s).pc = (a : Int) - 2 := rfl
  refine ⟨heffect, execute_jmp_pc_toNat ha s, fun hne => execute_jne_of_acc_ne_zero hne a, fun hzero => ?_⟩
  exact execute_pc_of_fallThrough (fun _ => nofun) fun _ => hzero

/-- Settles O12: either jump leaves the odd address in `pc`, where the next step's first check fails. -/
theorem jumpToOddAddressFaultsNext : Obligations.JumpToOddAddressFaultsNext := by
  intro s a hlt hodd
  have hpc : (execute (.jmp a) s.toEngine).pc.toNat = a := execute_jmp_pc_toNat hlt s.toEngine
  refine ⟨exec_next_step_alignment hpc hodd, fun hne => exec_next_step_alignment ?_ hodd⟩
  rw [execute_jne_of_acc_ne_zero hne, hpc]

/-- Settles O7, by JMP's net effect and its outcome on the machine. -/
theorem jmpGoesToAddress : Obligations.JmpGoesToAddress :=
  ⟨fun _ => execute_jmp, fun s a => exec_eq_of_execute (execute_jmp s.toEngine a),
    fun _ _ => toNat_ofNat_of_lt_memorySize, rfl⟩

/-- Settles O8, by JNE's net effect and its outcome on the machine. -/
theorem jneGoesToAddressIfNonZero : Obligations.JneGoesToAddressIfNonZero :=
  ⟨fun _ => execute_jne, fun s a => exec_eq_of_execute (execute_jne s.toEngine a),
    fun _ _ => toNat_ofNat_of_lt_memorySize, rfl⟩

end Sys2Proof.Machine
end

section
/-! SUPPORT. The exceptions family (60_exceptions.md): when a step faults and when it retires, the host's loop one iteration at
a time, the breakpoint table under its operations, and the invariant under every transaction; then the family's statements. -/

namespace Sys2Proof.Machine

variable {c : Config}

/-! ## The outcome of a step -/

/-- The three faults, each with all that R100 checks before it (R102 to R105). -/
theorem fetchDecode_error_iff (s : Engine c) (r : Fault) :
    fetchDecode s = .error r ↔
      (s.pc.toNat % 2 = 1 ∧ r = .alignment s.pc.toNat) ∨
      (s.pc.toNat % 2 = 0 ∧ c.memorySize ≤ s.pc.toNat + 1 ∧ r = .fetchRange s.pc.toNat) ∨
      (s.pc.toNat % 2 = 0 ∧ s.pc.toNat + 1 < c.memorySize ∧
        (∀ op, c.opcodeTag op ≠ Memory.read s.mem s.pc.toNat) ∧
        r = .decode s.pc.toNat (Memory.read s.mem s.pc.toNat).toNat) := by
  obtain ⟨hodd, hresult⟩ | ⟨heven, hend, hresult⟩ | ⟨heven, hin, ⟨i, hdecode, hresult⟩ | ⟨hnone, hresult⟩⟩ :=
    fetchDecode_cases s
  case inl => simp [hresult, hodd, eq_comm]
  case inr.inl => simp [hresult, heven, hend, Nat.not_lt.mpr hend, eq_comm]
  case inr.inr.inl =>
    obtain ⟨htag, -⟩ := (decode_ok_iff ..).mp hdecode
    have hsome : ¬ ∀ op, c.opcodeTag op ≠ Memory.read s.mem s.pc.toNat := fun hall => hall _ htag
    simp [hresult, heven, hsome, Nat.not_le.mpr hin]
  case inr.inr.inr =>
    have hall : ∀ op, c.opcodeTag op ≠ Memory.read s.mem s.pc.toNat := (opcodeOf_eq_none ..).mp hnone
    simp [hresult, heven, hin, hall, Nat.not_le.mpr hin, fetch, eq_comm]

/-- With `A = W` the program counter is a cell address, and an even one has its operand cell in memory too: `N` is even
(R104, R36). -/
theorem pc_succ_lt_memorySize (h : c.addrBits = c.archBits) {s : Engine c} (heven : s.pc.toNat % 2 = 0) :
    s.pc.toNat + 1 < c.memorySize := by
  have hlt : s.pc.toNat < c.memorySize := lt_of_lt_of_eq s.pc.isLt (congrArg (2 ^ ·) h.symm)
  have hsize := memorySize_even c
  omega

/-- Every instruction of the machine has a meaning, so its step is never refused. -/
theorem step_ne_refused (s : State) (r : Refusal) : step s ≠ .refused r := by
  unfold step
  split
  · rw [exec_eq_execute]
    nofun
  · nofun

/-- A retired step leaves the host's count to the host (R112). -/
theorem blockStep_totalCycles {s t : Engine c} (h : blockStep s = .retired t) : t.totalCycles = s.totalCycles := by
  obtain ⟨i, -, rfl⟩ := (blockStep_retired_iff ..).mp h
  rfl

/-- A retired step leaves the breakpoint table (R115). -/
theorem blockStep_breakpoints {s t : Engine c} (h : blockStep s = .retired t) : t.breakpoints = s.breakpoints := by
  obtain ⟨i, -, rfl⟩ := (blockStep_retired_iff ..).mp h
  rfl

/-- An execution carries the host's state along: no effect reads it (R112, R115, R126). -/
theorem execute_withHostState (i : Instr) (s : Engine c) (n : Nat) (table : List Breakpoint) :
    execute i { s with totalCycles := n, breakpoints := table } =
      { execute i s with totalCycles := n, breakpoints := table } := by
  cases i <;> rfl

/-! ## The statements on the step -/

/-- Settles O18: the machine's tags are the cells below 8, and its program counter is never out of range. -/
theorem machineFaultsExactlyWhen : Obligations.MachineFaultsExactlyWhen := by
  intro s
  refine ⟨fun r => ?_, step_ne_refused s⟩
  have htags : (∀ op, Config.taken.opcodeTag op ≠ Memory.read s.mem s.pc.toNat) ↔
      8 ≤ (Memory.read s.mem s.pc.toNat).toNat := by
    rw [← Nat.not_lt, ← exists_listedTag_iff, not_exists]
  rw [step_fault_iff, fetchDecode_error_iff, htags]
  constructor
  · rintro (halign | ⟨heven, hend, -⟩ | ⟨heven, -, hdecode⟩)
    · exact .inl halign
    · exact absurd (pc_succ_lt_memorySize rfl heven) (Nat.not_lt.mpr hend)
    · exact .inr ⟨heven, hdecode⟩
  · rintro (halign | ⟨heven, hdecode⟩)
    · exact .inl halign
    · exact .inr (.inr ⟨heven, pc_succ_lt_memorySize rfl heven, hdecode⟩)

/-- Settles O19: both steps fetch and decode the same instruction, and every meaning is the configuration-wide execution. -/
theorem machineStepIsBlockStepCounted : Obligations.MachineStepIsBlockStepCounted := by
  intro s
  cases h : blockStep s.toEngine with
  | retired t =>
    obtain ⟨i, hfetch, rfl⟩ := (blockStep_retired_iff ..).mp h
    exact (step_next_iff ..).mpr ⟨i, hfetch, rfl⟩
  | fault r => exact (step_fault_iff ..).mpr ((blockStep_fault_iff ..).mp h)

/-- Settles O20: the checks before decoding are the first two conditions, and a cell pair decodes exactly under a tag. -/
theorem stepRetiresExactlyWhenReady : Obligations.StepRetiresExactlyWhenReady := by
  intro c s
  constructor
  · simp only [Engine.CanStep, fetchDecode_ok_iff, exists_and_left, exists_decode_ok_iff, fetch]
  · constructor
    · rintro ⟨i, hfetch⟩
      exact ⟨execute i s, (blockStep_retired_iff ..).mpr ⟨i, hfetch, rfl⟩⟩
    · rintro ⟨t, hstep⟩
      obtain ⟨i, hfetch, -⟩ := (blockStep_retired_iff ..).mp hstep
      exact ⟨i, hfetch⟩

/-- Settles O21: the fault needs an even program counter whose operand cell is outside the memory. -/
theorem fullWidthNeverFetchRange : Obligations.FullWidthNeverFetchRange := by
  intro c hwidth s p hfault
  rw [blockStep_fault_iff, fetchDecode_error_iff] at hfault
  obtain ⟨-, hr⟩ | ⟨heven, hend, -⟩ | ⟨-, -, -, hr⟩ := hfault
  · cases hr
  · exact absurd (pc_succ_lt_memorySize hwidth heven) (Nat.not_lt.mpr hend)
  · cases hr

/-- Settles O24: the fetch reads `pc` and memory only, and the execution carries the host's state along. -/
theorem hostStateIsInvisibleToPrograms : Obligations.HostStateIsInvisibleToPrograms := by
  intro c s n table
  have hfetch : fetchDecode { s with totalCycles := n, breakpoints := table } = fetchDecode s := rfl
  cases h : blockStep s with
  | retired t =>
    obtain ⟨i, hi, rfl⟩ := (blockStep_retired_iff ..).mp h
    exact (blockStep_retired_iff ..).mpr ⟨i, hfetch.trans hi, (execute_withHostState i s n table).symm⟩
  | fault r => exact (blockStep_fault_iff ..).mpr (hfetch.trans ((blockStep_fault_iff ..).mp h))

/-- Settles O16, by the exact condition of each fault and by when an instruction is fetched. -/
theorem blockStepChecksInOrder : Obligations.BlockStepChecksInOrder := by
  intro c s
  refine ⟨fun hodd => ?alignment, blockStep_of_fetchRange, fun heven hin hnone => ?decode, fun heven hin op htag => ?retire⟩
  case alignment => exact (blockStep_fault_iff ..).mpr (fetchDecode_of_pc_odd hodd)
  case decode =>
    rw [blockStep_fault_iff, fetchDecode_error_iff]
    exact .inr (.inr ⟨heven, hin, hnone, rfl⟩)
  case retire =>
    have hdecode : decode c (fetch s).1 (fetch s).2 = .ok (Instr.make op (maskA c (fetch s).2.toNat)) :=
      (decode_ok_iff ..).mpr ⟨by rw [make_opcode]; exact htag, make_address ..⟩
    exact (blockStep_retired_iff ..).mpr ⟨_, (fetchDecode_ok_iff ..).mpr ⟨heven, hin, hdecode⟩, rfl⟩

/-- Settles O17: on the machine an even program counter passes the range check, so the decoded instruction is the one run. -/
theorem stepRunsTheDecodedInstruction : Obligations.StepRunsTheDecodedInstruction := by
  intro s i heven hdecode
  obtain ⟨hwf, -⟩ := encodeOfDecodeMasksTheOperand _ _ _ _ hdecode
  have hfetch : fetchDecode s.toEngine = .ok i :=
    (fetchDecode_ok_iff ..).mpr ⟨heven, pc_succ_lt_memorySize rfl heven, hdecode⟩
  exact ⟨hwf, _, exec_eq_execute i s, rfl, (step_next_iff ..).mpr ⟨i, hfetch, rfl⟩⟩

/-! ## One iteration of the host's loop -/

/-- A run ends at a fault with nothing changed (R101, R111). -/
theorem run_succ_of_fault {s : Engine c} {r : Fault} (h : blockStep s = .fault r) (n : Nat) :
    run (n + 1) s = (.faulted r, s) := by
  rw [run_succ, h]

/-- A run ends at a breakpoint on the new program counter, the step counted (R111, R113). -/
theorem run_succ_of_breakpoint {s t : Engine c} (h : blockStep s = .retired t)
    (hat : breakpointAt s.breakpoints t.pc.toNat = true) (n : Nat) : run (n + 1) s = (.atBreakpoint, t.countRetired) := by
  rw [← blockStep_breakpoints h] at hat
  simp only [run_succ, h, if_pos hat]

/-- Otherwise a run goes on from the retired state, the step counted (R111). -/
theorem run_succ_of_no_breakpoint {s t : Engine c} (h : blockStep s = .retired t)
    (hat : breakpointAt s.breakpoints t.pc.toNat = false) (n : Nat) : run (n + 1) s = run n t.countRetired := by
  rw [← blockStep_breakpoints h] at hat
  simp [run_succ, h, hat]

/-- The three ways an iteration ends, whatever number of steps is left (R111). -/
theorem run_succ_cases (s : Engine c) :
    (∃ r, blockStep s = .fault r ∧ ∀ n, run (n + 1) s = (.faulted r, s)) ∨
    (∃ t, blockStep s = .retired t ∧ breakpointAt s.breakpoints t.pc.toNat = true ∧
      ∀ n, run (n + 1) s = (.atBreakpoint, t.countRetired)) ∨
    (∃ t, blockStep s = .retired t ∧ breakpointAt s.breakpoints t.pc.toNat = false ∧
      ∀ n, run (n + 1) s = run n t.countRetired) := by
  cases h : blockStep s with
  | fault r => exact .inl ⟨r, rfl, run_succ_of_fault h⟩
  | retired t =>
    cases hat : breakpointAt s.breakpoints t.pc.toNat with
    | true => exact .inr (.inl ⟨t, rfl, hat, run_succ_of_breakpoint h hat⟩)
    | false => exact .inr (.inr ⟨t, rfl, hat, run_succ_of_no_breakpoint h hat⟩)

/-- What every counted step keeps, a run keeps (R111). -/
theorem run_keeps {P : Engine c → Prop} (hstep : ∀ s t, blockStep s = .retired t → P s → P t.countRetired) (n : Nat)
    {s : Engine c} (h : P s) : P (run n s).2 := by
  induction n generalizing s with
  | zero => exact h
  | succ n ih =>
    obtain ⟨r, -, hrun⟩ | ⟨t, ht, -, hrun⟩ | ⟨t, ht, -, hrun⟩ := run_succ_cases s
    · rw [hrun]
      exact h
    · rw [hrun]
      exact hstep s t ht h
    · rw [hrun]
      exact ih (hstep s t ht h)

/-! ## The statements on the loop -/

/-- Settles O38, by the rules of one iteration. -/
theorem runLoopIteration : Obligations.RunLoopIteration := by
  intro c s
  refine ⟨run_zero s, fun n => ⟨fun r hfault => run_succ_of_fault hfault n, fun t ht => ?_⟩⟩
  rw [← blockStep_totalCycles ht]
  exact ⟨fun hat => run_succ_of_breakpoint ht hat n, fun hat => run_succ_of_no_breakpoint ht hat n⟩

/-- Settles O23: the first iteration faults, and the run ends there. -/
theorem faultRepeatsUnchanged : Obligations.FaultRepeatsUnchanged :=
  fun _ _ _ => run_succ_of_fault

/-- Settles O39, by induction on the steps left: an iteration that goes on has counted one step and left the table. -/
theorem runCountsRetiredInstructions : Obligations.RunCountsRetiredInstructions := by
  intro c n
  induction n with
  | zero =>
    intro s t result hrun
    cases hrun
    exact ⟨rfl, rfl⟩
  | succ n ih =>
    intro s t result hrun
    obtain ⟨r, hfault, hiter⟩ | ⟨u, hu, hat, hiter⟩ | ⟨u, hu, -, hiter⟩ := run_succ_cases s
    case inl =>
      cases (hiter n).symm.trans hrun
      exact ⟨rfl, le_refl _, by omega, hfault⟩
    case inr.inl =>
      cases (hiter n).symm.trans hrun
      have hcount := blockStep_totalCycles hu
      have htable := blockStep_breakpoints hu
      refine ⟨htable, ?_, ?_, ?_⟩
      · rw [countRetired_totalCycles]; omega
      · rw [countRetired_totalCycles]; omega
      · rw [countRetired_breakpoints, htable]; exact hat
    case inr.inr =>
      obtain ⟨htable, hreport⟩ := ih _ _ _ ((hiter n).symm.trans hrun)
      rw [countRetired_breakpoints, blockStep_breakpoints hu] at htable
      rw [countRetired_totalCycles, blockStep_totalCycles hu] at hreport
      refine ⟨htable, ?_⟩
      cases result with
      | completed => exact hreport.trans (by omega)
      | faulted r =>
        obtain ⟨hle, hlt, hfault⟩ := hreport
        exact ⟨by omega, by omega, hfault⟩
      | atBreakpoint =>
        obtain ⟨hlt, hle, hat⟩ := hreport
        exact ⟨by omega, by omega, hat⟩

/-- Settles O40, by induction on the first part: an iteration of the whole run is an iteration of its first part. -/
theorem runComposes : Obligations.RunComposes := by
  intro c m n
  induction m with
  | zero =>
    intro s
    rw [Nat.zero_add, run_zero, if_pos rfl]
  | succ m ih =>
    intro s
    rw [Nat.add_right_comm]
    obtain ⟨r, -, hiter⟩ | ⟨t, -, -, hiter⟩ | ⟨t, -, -, hiter⟩ := run_succ_cases s
    · rw [hiter, hiter, if_neg nofun]
    · rw [hiter, hiter, if_neg nofun]
    · rw [hiter, hiter]
      exact ih t.countRetired

/-- Settles O41, by induction on the steps: with an empty table an iteration is a step of the machine, which leaves the table
empty. -/
theorem runIsMachineStepsWithoutBreakpoints : Obligations.RunIsMachineStepsWithoutBreakpoints := by
  intro n
  induction n with
  | zero =>
    intro s _
    rfl
  | succ n ih =>
    intro s hempty
    rw [core_run_succ]
    cases hstep : step s with
    | next t =>
      obtain ⟨i, hfetch, ht⟩ := (step_next_iff ..).mp hstep
      have hretired : blockStep s.toEngine = .retired (execute i s.toEngine) :=
        (blockStep_retired_iff ..).mpr ⟨i, hfetch, rfl⟩
      have hiter : run (n + 1) s.toEngine = run n t.toEngine := by
        rw [ht]
        exact run_succ_of_no_breakpoint hretired (by rw [hempty]; rfl) n
      rw [hiter]
      exact ih t (by rw [ht]; exact hempty)
    | fault r =>
      have hfault : blockStep s.toEngine = .fault r := (blockStep_fault_iff ..).mpr ((step_fault_iff ..).mp hstep)
      exact congrArg Prod.fst (run_succ_of_fault hfault n)
    | refused r => exact step_ne_refused s r hstep

/-! ## The breakpoint table -/

theorem findByAddress_eq_none_iff (table : List Breakpoint) (a : Nat) :
    findByAddress c table a = none ↔ ∀ b ∈ table, b.address ≠ maskA c a := by
  simp [findByAddress]

theorem findByName_eq_none_iff (table : List Breakpoint) (name : BreakpointName) :
    findByName table name = none ↔ ∀ b ∈ table, b.name ≠ name := by
  simp [findByName]

/-- The first failure cause of an insertion: no room (R117). -/
theorem insertBreakpoint_of_full {table : List Breakpoint} (h : c.maxInstructions ≤ table.length) (a : Nat)
    (name : BreakpointName) : insertBreakpoint c table a name = .error .tableFull :=
  if_pos h

/-- The second failure cause of an insertion: an entry at the masked address (R117). -/
theorem insertBreakpoint_of_address_mem {table : List Breakpoint} {a : Nat} (hroom : table.length < c.maxInstructions)
    (haddress : ∃ b ∈ table, b.address = maskA c a) (name : BreakpointName) :
    insertBreakpoint c table a name = .error .duplicateAddress := by
  rw [insertBreakpoint, if_neg (Nat.not_le.mpr hroom), if_pos ((findByAddress_isSome_iff ..).mpr haddress)]

/-- The third failure cause of an insertion: an entry with the name (R117). -/
theorem insertBreakpoint_of_name_mem {table : List Breakpoint} {a : Nat} {name : BreakpointName}
    (hroom : table.length < c.maxInstructions) (haddress : ∀ b ∈ table, b.address ≠ maskA c a)
    (hname : ∃ b ∈ table, b.name = name) : insertBreakpoint c table a name = .error .duplicateName := by
  rw [insertBreakpoint, if_neg (Nat.not_le.mpr hroom), (findByAddress_eq_none_iff table a).mpr haddress,
    if_neg nofun, if_pos ((findByName_isSome_iff ..).mpr hname)]

/-- Every part of a table in order is a table: fewer entries, at addresses of the space, still distinct (R115, R116). -/
theorem breakpointsWf_of_sublist {table table' : List Breakpoint} (hsub : table'.Sublist table)
    (h : BreakpointsWf c table) : BreakpointsWf c table' := by
  obtain ⟨hlength, haddress, hdistinct⟩ := h
  exact ⟨hsub.length_le.trans hlength, fun b hb => haddress b (hsub.subset hb), hdistinct.sublist hsub⟩

/-- An insertion checks what the invariant asks of the new entry (R116, R117). -/
theorem insertBreakpoint_keeps_wf {table table' : List Breakpoint} {a : Nat} {name : BreakpointName}
    (h : BreakpointsWf c table) (hok : insertBreakpoint c table a name = .ok table') : BreakpointsWf c table' := by
  obtain ⟨hlength, haddress, hdistinct⟩ := h
  obtain ⟨hroom, hnewAddress, hnewName, rfl⟩ := (insertBreakpoint_ok_iff ..).mp hok
  refine ⟨?_, fun b hb => ?_, ?_⟩
  · rw [List.length_append]
    exact hroom
  · rcases List.mem_append.mp hb with hb | hb
    · exact haddress b hb
    · rw [List.mem_singleton.mp hb]
      exact maskA_lt c a
  · refine List.pairwise_append.mpr ⟨hdistinct, List.pairwise_singleton .., fun b hb b' hb' => ?_⟩
    rw [List.mem_singleton.mp hb']
    exact ⟨hnewAddress b hb, hnewName b hb⟩

theorem deleteByAddress_keeps_wf {table table' : List Breakpoint} {a : Nat} (h : BreakpointsWf c table)
    (hok : deleteByAddress c table a = .ok table') : BreakpointsWf c table' := by
  obtain ⟨-, rfl⟩ := (deleteByAddress_ok_iff ..).mp hok
  exact breakpointsWf_of_sublist List.eraseP_sublist h

theorem deleteByName_keeps_wf {table table' : List Breakpoint} {name : BreakpointName} (h : BreakpointsWf c table)
    (hok : deleteByName table name = .ok table') : BreakpointsWf c table' := by
  obtain ⟨-, rfl⟩ := (deleteByName_ok_iff ..).mp hok
  exact breakpointsWf_of_sublist List.eraseP_sublist h

/-- The search by address reaches the first entry that matches (R118). -/
theorem findByAddress_append_cons {before : List Breakpoint} {b : Breakpoint} {a : Nat} (hb : b.address = maskA c a)
    (hbefore : ∀ b' ∈ before, b'.address ≠ maskA c a) (after : List Breakpoint) :
    findByAddress c (before ++ b :: after) a = some b :=
  List.find?_eq_some_iff_append.mpr
    ⟨beq_iff_eq.mpr hb, before, after, rfl, fun b' hb' => by simpa using hbefore b' hb'⟩

/-- The search by name reaches the first entry that matches (R118). -/
theorem findByName_append_cons {before : List Breakpoint} {b : Breakpoint} {name : BreakpointName} (hb : b.name = name)
    (hbefore : ∀ b' ∈ before, b'.name ≠ name) (after : List Breakpoint) :
    findByName (before ++ b :: after) name = some b :=
  List.find?_eq_some_iff_append.mpr
    ⟨beq_iff_eq.mpr hb, before, after, rfl, fun b' hb' => by simpa using hbefore b' hb'⟩

/-- Removing the first match from a table, when the entries before it do not match. -/
theorem eraseP_append_cons {p : Breakpoint → Bool} {before : List Breakpoint} {b : Breakpoint} (hb : p b = true)
    (hbefore : ∀ b' ∈ before, ¬ p b' = true) (after : List Breakpoint) :
    (before ++ b :: after).eraseP p = before ++ after := by
  rw [List.eraseP_append_right _ hbefore, List.eraseP_cons_of_pos hb]

/-- A deletion by address takes the first entry that matches out of its place (R119). -/
theorem deleteByAddress_append_cons {before : List Breakpoint} {b : Breakpoint} {a : Nat} (hb : b.address = maskA c a)
    (hbefore : ∀ b' ∈ before, b'.address ≠ maskA c a) (after : List Breakpoint) :
    deleteByAddress c (before ++ b :: after) a = .ok (before ++ after) := by
  refine (deleteByAddress_ok_iff ..).mpr ⟨⟨b, List.mem_append_cons_self, hb⟩, ?_⟩
  exact (eraseP_append_cons (by simpa using hb) (by simpa using hbefore) after).symm

/-- A deletion by name takes the first entry that matches out of its place (R119). -/
theorem deleteByName_append_cons {before : List Breakpoint} {b : Breakpoint} {name : BreakpointName} (hb : b.name = name)
    (hbefore : ∀ b' ∈ before, b'.name ≠ name) (after : List Breakpoint) :
    deleteByName (before ++ b :: after) name = .ok (before ++ after) := by
  refine (deleteByName_ok_iff ..).mpr ⟨⟨b, List.mem_append_cons_self, hb⟩, ?_⟩
  exact (eraseP_append_cons (by simpa using hb) (by simpa using hbefore) after).symm

/-- In a table that meets its invariant every other entry differs from a given one in address and in name (R116). -/
theorem ne_of_mem_others {before after : List Breakpoint} {b : Breakpoint} (h : BreakpointsWf c (before ++ b :: after)) :
    ∀ b' ∈ before ++ after, b'.address ≠ b.address ∧ b'.name ≠ b.name := by
  obtain ⟨-, -, hdistinct⟩ := h
  rw [List.pairwise_middle fun hne => ⟨hne.1.symm, hne.2.symm⟩, List.pairwise_cons] at hdistinct
  obtain ⟨hothers, -⟩ := hdistinct
  exact fun b' hb' => (hothers b' hb').imp Ne.symm Ne.symm

/-- No entry but the one at an address stands there. -/
theorem address_ne_of_mem_others {before after : List Breakpoint} {b : Breakpoint} {p : Nat}
    (h : BreakpointsWf c (before ++ b :: after)) (hb : b.address = p) : ∀ b' ∈ before ++ after, b'.address ≠ p :=
  fun b' hb' => hb ▸ (ne_of_mem_others h b' hb').1

/-- No entry but the one with a name has it. -/
theorem name_ne_of_mem_others {before after : List Breakpoint} {b : Breakpoint} {name : BreakpointName}
    (h : BreakpointsWf c (before ++ b :: after)) (hb : b.name = name) : ∀ b' ∈ before ++ after, b'.name ≠ name :=
  fun b' hb' => hb ▸ (ne_of_mem_others h b' hb').2

/-! ## The statements on the breakpoint table -/

/-- Settles O42: each failure cause in its order, and otherwise an insertion that succeeds. -/
theorem insertChecksInOrder : Obligations.InsertChecksInOrder := by
  intro c s a name
  have htransact : transact (.insert a name) s = withTable s (insertBreakpoint c s.breakpoints a name) := rfl
  rw [htransact]
  refine ⟨fun hfull => ?full, fun hroom hdup => ?address, fun hroom hnew hdup => ?name, fun hroom hnew hname => ?done⟩
  case full => rw [insertBreakpoint_of_full hfull]; rfl
  case address => rw [insertBreakpoint_of_address_mem hroom hdup]; rfl
  case name => rw [insertBreakpoint_of_name_mem hroom hnew hdup]; rfl
  case done => rw [(insertBreakpoint_ok_iff ..).mpr ⟨hroom, hnew, hname, rfl⟩]; rfl

/-- Settles O43, operation by operation. -/
theorem breakpointOperationsKeepTable : Obligations.BreakpointOperationsKeepTable :=
  fun _ _ _ _ _ h => ⟨insertBreakpoint_keeps_wf h, deleteByAddress_keeps_wf h, deleteByName_keeps_wf h⟩

/-- Settles O44: no entry before the new one matches, so both searches reach it; a run stops there by the loop's own rule. -/
theorem insertedBreakpointIsFound : Obligations.InsertedBreakpointIsFound := by
  intro c table table' a name hok
  obtain ⟨-, haddress, hname, rfl⟩ := (insertBreakpoint_ok_iff ..).mp hok
  have hat : breakpointAt (table ++ [⟨maskA c a, name⟩]) (maskA c a) = true :=
    (breakpointAt_iff ..).mpr ⟨⟨maskA c a, name⟩, List.mem_concat_self, rfl⟩
  refine ⟨findByAddress_append_cons rfl haddress [], findByName_append_cons rfl hname [], hat,
    fun s t n htable ht hpc => ?_⟩
  rw [← blockStep_totalCycles ht]
  exact run_succ_of_breakpoint ht (by rw [htable, hpc]; exact hat) n

/-- Settles O45: the entries before a matching one differ from it, so the search reaches it. -/
theorem lookupFindsTheOneEntry : Obligations.LookupFindsTheOneEntry := by
  intro c table a name hwf
  refine ⟨fun b hb haddress => ?_, fun b hb hname => ?_, findByAddress_eq_none_iff table a,
    findByName_eq_none_iff table name⟩
  · obtain ⟨before, after, rfl⟩ := List.append_of_mem hb
    have hothers := address_ne_of_mem_others hwf haddress
    exact findByAddress_append_cons haddress (fun b' hb' => hothers b' (List.mem_append_left _ hb')) after
  · obtain ⟨before, after, rfl⟩ := List.append_of_mem hb
    have hothers := name_ne_of_mem_others hwf hname
    exact findByName_append_cons hname (fun b' hb' => hothers b' (List.mem_append_left _ hb')) after

/-- Settles O46: a deletion's search and its removal meet the one matching entry, and no other entry matches after it. -/
theorem deletionIsStable : Obligations.DeletionIsStable := by
  intro c s a name hwf
  have hbyAddress : transact (.deleteByAddress a) s = withTable s (deleteByAddress c s.breakpoints a) := rfl
  have hbyName : transact (.deleteByName name) s = withTable s (deleteByName s.breakpoints name) := rfl
  rw [hbyAddress, hbyName]
  refine ⟨fun hnone => ?_, fun hnone => ?_, fun before b after htable haddress => ?_, fun before b after htable hname => ?_⟩
  · rw [deleteByAddress, (findByAddress_eq_none_iff ..).mpr hnone]
    rfl
  · rw [deleteByName, (findByName_eq_none_iff ..).mpr hnone]
    rfl
  · rw [htable] at hwf ⊢
    have hothers := address_ne_of_mem_others hwf haddress
    refine ⟨?_, (findByAddress_eq_none_iff ..).mpr hothers⟩
    rw [deleteByAddress_append_cons haddress fun b' hb' => hothers b' (List.mem_append_left _ hb')]
    rfl
  · rw [htable] at hwf ⊢
    have hothers := name_ne_of_mem_others hwf hname
    refine ⟨?_, (findByName_eq_none_iff ..).mpr hothers⟩
    rw [deleteByName_append_cons hname fun b' hb' => hothers b' (List.mem_append_left _ hb')]
    rfl

/-- Settles O47: every reading transaction answers beside the state it was given. -/
theorem readTransactionsChangeNothing : Obligations.ReadTransactionsChangeNothing := by
  intro c s a name answer
  refine ⟨rfl, rfl, rfl, rfl, fun hin => ?_, fun hout => ?_, rfl, rfl, rfl⟩
  · have hread : readMemory s a = .ok (Memory.read s.mem a) := if_pos hin
    simp only [transact, hread]
  · have hread : readMemory s a = .error (.noSuchCell a) := if_neg (Nat.not_lt.mpr hout)
    simp only [transact, hread]

/-! ## The invariant under a transaction -/

/-- A retired and counted step of the block keeps the invariant (R33, R115). -/
theorem blockStep_keeps_inv {s t : Engine c} (ht : blockStep s = .retired t) (h : s.Inv) : t.countRetired.Inv := by
  obtain ⟨i, -, rfl⟩ := (blockStep_retired_iff ..).mp ht
  exact countRetired_keeps_inv (execute_keeps_inv i h)

/-- A run of any length keeps the invariant. -/
theorem run_keeps_inv (n : Nat) {s : Engine c} (h : s.Inv) : (run n s).2.Inv :=
  run_keeps (fun _ _ => blockStep_keeps_inv) n h

/-- A breakpoint operation keeps the invariant of the state when what it answers keeps the table's. -/
theorem withTable_keeps_inv {s : Engine c} {answer : Except TableError (List Breakpoint)} (h : s.Inv)
    (htable : ∀ table, answer = .ok table → BreakpointsWf c table) : (withTable s answer).2.Inv := by
  obtain hsame | ⟨table, hok, hnew⟩ := withTable_snd s answer
  · rw [hsame]
    exact h
  · rw [hnew]
    exact ⟨h.1, htable table hok⟩

/-- The breakpoint lines of a file build a table by insertions, so from a table that meets its invariant to one that does
(R143 field 5, R116). -/
theorem takeBreakpoints_keeps_wf {lines : List FileLine} {table table' : List Breakpoint} (h : BreakpointsWf c table)
    (hlines : takeBreakpoints c table lines = some table') : BreakpointsWf c table' := by
  induction lines generalizing table with
  | nil =>
    cases hlines
    exact h
  | cons line rest ih =>
    cases line with
    | breakpoint address name =>
      rw [takeBreakpoints] at hlines
      split at hlines
      case isFalse => cases hlines
      case isTrue =>
        split at hlines
        case h_1 table1 hinsert => exact ih (insertBreakpoint_keeps_wf h hinsert) hlines
        case h_2 => cases hlines
    | integer v => cases hlines
    | malformed => cases hlines

/-- A table with no entry meets its invariant (R115). -/
theorem breakpointsWf_nil (c : Config) : BreakpointsWf c [] :=
  ⟨Nat.zero_le _, nofun, .nil⟩

/-- Every load leaves a state that meets the invariant, whatever the state before: memory is built from `N` cells, and the
table is the file's or empty (R142, R144). -/
theorem loadState_inv (file : List FileLine) (s : Engine c) : (loadState file s).2.Inv := by
  obtain ⟨image, himage, hload⟩ | ⟨-, hload⟩ := loadState_cases file s
  · obtain ⟨_, _, _, _, -, -, -, hcells, hbreakpoints⟩ := parseImage_eq_some file image himage
    obtain ⟨hlength, -⟩ := takeCells_length hcells
    rw [hload]
    exact ⟨ofCellsFrom_wf hlength.le, takeBreakpoints_keeps_wf (breakpointsWf_nil c) hbreakpoints⟩
  · rw [hload]
    exact ⟨ofCellsFrom_wf (by simp), breakpointsWf_nil c⟩

/-- Settles O57: a run, a load and the three table operations keep the invariant, the reset leaves memory and the table, and
every other transaction changes nothing. -/
theorem everyTransactionKeepsInvariant : Obligations.EveryTransactionKeepsInvariant := by
  intro c s t h
  have htable : BreakpointsWf c s.breakpoints := h.2
  cases t with
  | run steps => exact run_keeps_inv steps h
  | insert address name => exact withTable_keeps_inv h fun _ => insertBreakpoint_keeps_wf htable
  | deleteByAddress address => exact withTable_keeps_inv h fun _ => deleteByAddress_keeps_wf htable
  | deleteByName name => exact withTable_keeps_inv h fun _ => deleteByName_keeps_wf htable
  | load file => exact loadState_inv file s
  | readMemory address =>
    simp only [transact]
    split <;> exact h
  | _ => exact h

/-- Settles O58, by induction on the transactions. -/
theorem reachableStatesMeetInvariant : Obligations.ReachableStatesMeetInvariant := by
  intro c s u h hreach
  induction hreach with
  | start => exact h
  | next t _ ih => exact everyTransactionKeepsInvariant c _ t ih

end Sys2Proof.Machine
end

section
/-! SUPPORT. The reset and load family (70_reset_and_hazards.md): the lines of a state file, and that a load succeeds exactly on
the file of a valid state, with that state; the states a reset leaves; a self-loop; then the family's statements. -/

namespace Sys2Proof.Machine

variable {c : Config}

/-! ## The parts of a file -/

/-- The line a cell is saved as (R143 field 4). -/
def cellLine (v : c.Cell) : FileLine := .integer v.toNat

/-- The line a breakpoint is saved as (R143 field 5). -/
def breakpointLine (b : Breakpoint) : FileLine := .breakpoint b.address b.name

/-- The bound a load puts on `acc` and on a cell is the number of their values (R4). -/
theorem archMaxVal_add_one (w : Nat) : archMaxVal w + 1 = 2 ^ w := Nat.sub_add_cancel Nat.one_le_two_pow

/-- No value exceeds `ARCH_MAXVAL` (R4). -/
theorem toNat_le_archMaxVal (x : c.Cell) : x.toNat ≤ archMaxVal c.archBits := Nat.le_pred_of_lt x.isLt

/-- A number below the bound is taken from its line (R144). -/
theorem takeNat_of_lt {v bound : Nat} (h : v < bound) (rest : List FileLine) :
    takeNat (some bound) (.integer v :: rest) = some (v, rest) :=
  (takeNat_eq_some ..).mpr ⟨rfl, by simpa using h⟩

/-- The cells a load takes are those whose lines the file begins with: the bound lets every value of a cell pass, and no other
(R143 field 4, R144). -/
theorem takeCells_eq_some_iff {n : Nat} {lines rest : List FileLine} {vs : List c.Cell} :
    takeCells c n lines = some (vs, rest) ↔ vs.length = n ∧ lines = vs.map cellLine ++ rest := by
  induction n generalizing lines rest vs with
  | zero =>
    rw [takeCells, Option.some.injEq, Prod.mk.injEq, List.length_eq_zero_iff]
    constructor
    · rintro ⟨rfl, rfl⟩
      exact ⟨rfl, rfl⟩
    · rintro ⟨rfl, rfl⟩
      exact ⟨rfl, rfl⟩
  | succ n ih =>
    simp only [takeCells, Option.bind_eq_bind, Option.bind_eq_some_iff, Prod.exists, Option.some.injEq, Prod.mk.injEq,
      takeNat_eq_some, ih, archMaxVal_add_one]
    constructor
    · rintro ⟨v, _, ⟨rfl, hv⟩, vs, _, ⟨rfl, rfl⟩, rfl, rfl⟩
      have hline : cellLine (BitVec.ofNat c.archBits v) = .integer v := by
        rw [cellLine, BitVec.toNat_ofNat, Nat.mod_eq_of_lt (hv _ rfl)]
      exact ⟨rfl, by rw [List.map_cons, hline, List.cons_append]⟩
    · rintro ⟨hlength, rfl⟩
      cases vs with
      | nil => cases hlength
      | cons v vs =>
        have hv : ∀ b ∈ some (2 ^ c.archBits), v.toNat < b := fun b hb => Option.some.inj hb ▸ v.isLt
        exact ⟨v.toNat, _, ⟨rfl, hv⟩, vs, rest, ⟨Nat.succ.inj hlength, rfl⟩, by simp, rfl⟩

/-- A breakpoint of a table stands in the space (R115). -/
theorem address_lt_memorySize {table : List Breakpoint} {b : Breakpoint} (h : BreakpointsWf c table) (hb : b ∈ table) :
    b.address < c.memorySize := by
  obtain ⟨-, haddress, -⟩ := h
  exact haddress b hb

/-- Two breakpoints at different places of a table have different addresses (R116). -/
theorem address_ne_of_lt {table : List Breakpoint} {b b' : Breakpoint} {i j : Nat} (h : BreakpointsWf c table) (hij : i < j)
    (hb : table[i]? = some b) (hb' : table[j]? = some b') : b.address ≠ b'.address := by
  obtain ⟨-, -, hdistinct⟩ := h
  obtain ⟨hi, rfl⟩ := List.getElem?_eq_some_iff.mp hb
  obtain ⟨hj, rfl⟩ := List.getElem?_eq_some_iff.mp hb'
  exact (List.pairwise_iff_getElem.mp hdistinct i j hi hj hij).1

/-- Into a table that meets its invariant an entry at an address of the space is inserted exactly when the longer table meets
it too: the failure causes of `Insert` are what the invariant excludes (R116, R117). -/
theorem insertBreakpoint_ok_iff_wf {table table' : List Breakpoint} {b : Breakpoint} (h : BreakpointsWf c table)
    (hb : b.address < c.memorySize) :
    insertBreakpoint c table b.address b.name = .ok table' ↔ table' = table ++ [b] ∧ BreakpointsWf c (table ++ [b]) := by
  have hmask : maskA c b.address = b.address := maskA_of_lt hb
  constructor
  · intro hok
    have hwf := insertBreakpoint_keeps_wf h hok
    obtain ⟨-, -, -, rfl⟩ := (insertBreakpoint_ok_iff ..).mp hok
    rw [hmask] at hwf ⊢
    exact ⟨rfl, hwf⟩
  · rintro ⟨rfl, hwf⟩
    have hothers := ne_of_mem_others hwf
    obtain ⟨hlength, -, -⟩ := hwf
    rw [List.append_nil] at hothers
    rw [List.length_append] at hlength
    rw [insertBreakpoint_ok_iff, hmask]
    exact ⟨hlength, fun b' hb' => (hothers b' hb').1, fun b' hb' => (hothers b' hb').2, rfl⟩

/-- The breakpoint lines of a file extend a table by the breakpoints they are the lines of, in file order (R143 field 5). -/
theorem takeBreakpoints_eq_some {lines : List FileLine} {table table' : List Breakpoint} (h : BreakpointsWf c table)
    (hlines : takeBreakpoints c table lines = some table') :
    ∃ added, table' = table ++ added ∧ lines = added.map breakpointLine := by
  induction lines generalizing table with
  | nil =>
    cases hlines
    exact ⟨[], (List.append_nil _).symm, rfl⟩
  | cons line rest ih =>
    cases line with
    | breakpoint address name =>
      rw [takeBreakpoints] at hlines
      split at hlines
      case isFalse => cases hlines
      case isTrue hrange =>
        obtain ⟨hnonneg, hbelow⟩ := hrange
        obtain ⟨p, rfl⟩ := Int.eq_ofNat_of_zero_le hnonneg
        split at hlines
        case h_2 => cases hlines
        case h_1 table1 hinsert =>
          obtain ⟨rfl, hwf⟩ := (insertBreakpoint_ok_iff_wf (b := ⟨p, name⟩) h (Int.ofNat_lt.mp hbelow)).mp hinsert
          obtain ⟨added, rfl, rfl⟩ := ih hwf hlines
          exact ⟨⟨p, name⟩ :: added, List.append_assoc .., rfl⟩
    | integer v => cases hlines
    | malformed => cases hlines

/-- The lines of breakpoints that a table can take are all taken: every insertion on the way leaves a part of a table that meets
the invariant (R143 field 5, R116). -/
theorem takeBreakpoints_map_breakpointLine {table added : List Breakpoint} (h : BreakpointsWf c (table ++ added)) :
    takeBreakpoints c table (added.map breakpointLine) = some (table ++ added) := by
  induction added generalizing table with
  | nil =>
    rw [List.append_nil]
    rfl
  | cons b added ih =>
    have hb : b.address < c.memorySize := address_lt_memorySize h List.mem_append_cons_self
    have hrange : (0 : Int) ≤ b.address ∧ (b.address : Int) < c.memorySize := ⟨by omega, by omega⟩
    have htable : BreakpointsWf c table := breakpointsWf_of_sublist (List.sublist_append_left ..) h
    rw [List.append_cons] at h ⊢
    have hnext : BreakpointsWf c (table ++ [b]) := breakpointsWf_of_sublist (List.sublist_append_left ..) h
    have hinsert := (insertBreakpoint_ok_iff_wf htable hb).mpr ⟨rfl, hnext⟩
    rw [List.map_cons, breakpointLine, takeBreakpoints, if_pos hrange, Int.toNat_natCast, hinsert]
    exact ih h

/-! ## The file of an image -/

/-- The lines that give an image, in the order of R143. -/
def Image.lines (image : Image c) : List FileLine :=
  [.integer image.totalCycles, .integer image.acc, .integer image.pc] ++ image.cells.map cellLine ++
    image.breakpoints.map breakpointLine

/-- What a load demands of the values a file gives (R142, R144). -/
structure Image.InRange (image : Image c) : Prop where
  acc : image.acc < 2 ^ c.archBits
  pc : image.pc < c.memorySize
  cells : image.cells.length = c.memorySize
  breakpoints : BreakpointsWf c image.breakpoints

/-- A file is read as an image exactly when it is that image's lines and the values are in range (R143, R144). -/
theorem parseImage_eq_some_iff {file : List FileLine} {image : Image c} :
    parseImage c file = some image ↔ file = image.lines ∧ image.InRange := by
  constructor
  · intro h
    obtain ⟨_, _, _, _, hcycles, hacc, hpc, hcells, hbreakpoints⟩ := parseImage_eq_some file image h
    obtain ⟨rfl, -⟩ := (takeNat_eq_some ..).mp hcycles
    obtain ⟨rfl, haccBound⟩ := (takeNat_eq_some ..).mp hacc
    obtain ⟨rfl, hpcBound⟩ := (takeNat_eq_some ..).mp hpc
    obtain ⟨hlength, rfl⟩ := takeCells_eq_some_iff.mp hcells
    have hwf := takeBreakpoints_keeps_wf (breakpointsWf_nil c) hbreakpoints
    obtain ⟨_, rfl, rfl⟩ := takeBreakpoints_eq_some (breakpointsWf_nil c) hbreakpoints
    exact ⟨rfl, archMaxVal_add_one c.archBits ▸ haccBound _ rfl, hpcBound _ rfl, hlength, hwf⟩
  · rintro ⟨rfl, hacc, hpc, hlength, hwf⟩
    rw [← archMaxVal_add_one] at hacc
    have htakeCycles := fun rest => (takeNat_eq_some none _ rest image.totalCycles).mpr ⟨rfl, nofun⟩
    have htakeCells := fun rest => (takeCells_eq_some_iff (rest := rest)).mpr ⟨hlength, rfl⟩
    have htakeBreakpoints : takeBreakpoints c [] (image.breakpoints.map breakpointLine) = some image.breakpoints :=
      takeBreakpoints_map_breakpointLine hwf
    simp only [parseImage, Image.lines, List.cons_append, List.nil_append, htakeCycles, takeNat_of_lt hacc, takeNat_of_lt hpc,
      htakeCells, htakeBreakpoints, Option.bind_eq_bind, Option.bind_some]

/-- The values of a state that a save writes (R145). -/
def Engine.image (s : Engine c) : Image c where
  totalCycles := s.totalCycles
  acc := s.acc.toNat
  pc := s.pc.toNat
  cells := s.mem.cells
  breakpoints := s.breakpoints

/-- A save writes the lines of the state's image (R145). -/
theorem fileLines_eq (s : Engine c) : s.fileLines = s.image.lines := rfl

theorem cells_length (m : Memory c) : m.cells.length = c.memorySize := by simp [Memory.cells]

/-- The cells of a memory built from `N` values are those values. -/
theorem cells_ofCellsFrom {vs : List c.Cell} (h : vs.length = c.memorySize) : (Memory.ofCellsFrom 0 vs).cells = vs := by
  refine List.ext_getElem ((cells_length _).trans h.symm) fun k _ hk => ?_
  simp [Memory.cells, read_ofCellsFrom, hk]

/-- A canonical memory is built again from the values of its cells. -/
theorem ofCellsFrom_cells {m : Memory c} (h : Memory.wf m) : Memory.ofCellsFrom 0 m.cells = m := by
  refine canonicalMemoriesAreEqual c _ m (ofCellsFrom_wf (cells_length m).le) h fun k hk => ?_
  simp [read_ofCellsFrom, Memory.cells, hk]

/-- The values of a valid state are in range (R142). -/
theorem image_inRange {s : Engine c} (h : s.Valid) : s.image.InRange := by
  obtain ⟨hpc, htable⟩ := h
  exact ⟨s.acc.isLt, hpc, cells_length s.mem, htable⟩

/-- The state given by values in range has those values (R143). -/
theorem image_ofImage (s : Engine c) {image : Image c} (h : image.InRange) : (s.ofImage image).image = image := by
  have hacc : (s.ofImage image).acc.toNat = image.acc := Nat.mod_eq_of_lt h.acc
  have hpc : (s.ofImage image).pc.toNat = image.pc := toNat_ofNat_of_lt_memorySize h.pc
  have hcells : (s.ofImage image).mem.cells = image.cells := cells_ofCellsFrom h.cells
  rw [Engine.image, hacc, hpc, hcells]
  rfl

/-- The values of a canonical state give that state again, but for the model's own count (R143). -/
theorem ofImage_image {t : Engine c} (h : Memory.wf t.mem) (s : Engine c) :
    s.ofImage t.image = { t with draws := s.draws } := by
  simp [Engine.ofImage, Engine.image, ofCellsFrom_cells h]

/-! ## When a load succeeds -/

/-- A load succeeds exactly on the file that a save of a valid, canonical state writes, and gives that state: loading and saving
are inverse (R142 to R145). -/
theorem loadState_eq_loaded_iff {file : List FileLine} {s t : Engine c} :
    loadState file s = (.loaded, t) ↔ file = t.fileLines ∧ t.Valid ∧ Memory.wf t.mem ∧ t.draws = s.draws := by
  constructor
  · intro h
    obtain ⟨image, himage, hload⟩ | ⟨-, hload⟩ := loadState_cases file s
    · obtain ⟨rfl, hrange⟩ := parseImage_eq_some_iff.mp himage
      cases hload.symm.trans h
      have hpc : (s.ofImage image).pc.toNat = image.pc := toNat_ofNat_of_lt_memorySize hrange.pc
      refine ⟨?_, ⟨lt_of_eq_of_lt hpc hrange.pc, hrange.breakpoints⟩, ofCellsFrom_wf hrange.cells.le, rfl⟩
      rw [fileLines_eq, image_ofImage s hrange]
    · cases hload.symm.trans h
  · rintro ⟨rfl, hvalid, hwf, hdraws⟩
    have hparse : parseImage c t.fileLines = some t.image := parseImage_eq_some_iff.mpr ⟨fileLines_eq t, image_inRange hvalid⟩
    rw [loadState, hparse]
    simp only [ofImage_image hwf, ← hdraws]

/-- A file that no valid state is saved as fails to load (R144). -/
theorem loadState_persistenceFault {file : List FileLine} (h : ∀ t : Engine c, t.Valid → file ≠ t.fileLines)
    (s : Engine c) : (loadState file s).1 = .persistenceFault := by
  obtain ⟨image, -, hload⟩ | ⟨-, hload⟩ := loadState_cases file s
  · obtain ⟨hfile, hvalid, -⟩ := loadState_eq_loaded_iff.mp hload
    exact absurd hfile (h _ hvalid)
  · rw [hload]

/-! ## The lines of a saved file -/

theorem fileLines_length (s : Engine c) : s.fileLines.length = 3 + c.memorySize + s.breakpoints.length := by
  simp only [Engine.fileLines, List.length_append, List.length_map, cells_length, List.length_cons, List.length_nil]

/-- After the three registers stand the cells (R143 field 4). -/
theorem fileLines_getElem?_cell (s : Engine c) {k : Nat} (hk : k < c.memorySize) :
    s.fileLines[3 + k]? = some (.integer (Memory.read s.mem k).toNat) := by
  have hskip : s.fileLines[k + 3]? = (s.mem.cells.map cellLine ++ s.breakpoints.map breakpointLine)[k]? := rfl
  rw [Nat.add_comm, hskip, List.getElem?_append_left (by simpa [cells_length] using hk)]
  simp [cellLine, Memory.cells, hk]

/-- After the cells stand the breakpoints, to the end (R143 field 5). -/
theorem fileLines_drop (s : Engine c) : s.fileLines.drop (3 + c.memorySize) = s.breakpoints.map breakpointLine :=
  List.drop_left' (by simp only [List.length_append, List.length_map, cells_length, List.length_cons, List.length_nil])

theorem fileLines_getElem?_breakpoint (s : Engine c) (k : Nat) :
    s.fileLines[3 + c.memorySize + k]? = s.breakpoints[k]?.map breakpointLine := by
  rw [← List.getElem?_drop, fileLines_drop, List.getElem?_map]

/-- Every line before the breakpoints is a non-negative integer (R143). -/
theorem fileLines_getElem?_integer (s : Engine c) {k : Nat} (hk : k < 3 + c.memorySize) :
    ∃ v : Nat, s.fileLines[k]? = some (.integer v) := by
  match k with
  | 0 => exact ⟨s.totalCycles, rfl⟩
  | 1 => exact ⟨s.acc.toNat, rfl⟩
  | 2 => exact ⟨s.pc.toNat, rfl⟩
  | k + 3 =>
    have hcell := fileLines_getElem?_cell s (k := k) (by omega)
    exact ⟨_, Nat.add_comm k 3 ▸ hcell⟩

/-- A line after the cells is the line of an entry of the table (R143 field 5). -/
theorem exists_breakpoint_of_fileLines {s : Engine c} {k : Nat} {line : FileLine} (hk : 3 + c.memorySize ≤ k)
    (hline : s.fileLines[k]? = some line) :
    ∃ b, s.breakpoints[k - (3 + c.memorySize)]? = some b ∧ line = breakpointLine b := by
  obtain ⟨j, rfl⟩ := Nat.exists_eq_add_of_le hk
  rw [fileLines_getElem?_breakpoint, Option.map_eq_some_iff] at hline
  obtain ⟨b, hb, rfl⟩ := hline
  exact ⟨b, by rwa [Nat.add_sub_cancel_left], rfl⟩

/-! ## The statements on the load -/

/-- Settles O54: a valid, canonical state is what a load gives from the file it was saved as. -/
theorem saveThenLoadReproducesState : Obligations.SaveThenLoadReproducesState := by
  intro c s fresh hvalid hwf
  exact loadState_eq_loaded_iff.mpr ⟨rfl, hvalid, hwf, rfl⟩

/-- Settles O52: the file is the one the loaded state would be saved as, so its lines are that state's. -/
theorem loadedStateIsValidAndTheFiles : Obligations.LoadedStateIsValidAndTheFiles := by
  intro c s t file hload
  obtain ⟨rfl, hvalid, hwf, -⟩ := loadState_eq_loaded_iff.mp hload
  exact ⟨hvalid, hwf, rfl, rfl, rfl, fun _ => fileLines_getElem?_cell t, fileLines_drop t⟩

/-- Settles O51: in each clause the file differs from every valid state's in the line, or in the length, that the clause names. -/
theorem loadRejectsBadFiles : Obligations.LoadRejectsBadFiles := by
  intro c s file
  refine ⟨fun hshort => ?short, fun k hk hno => ?malformed, fun v hv hbig => ?acc, fun v hv hbig => ?pc,
      fun k v hlo hhi hv hbig => ?cell, fun k line hk hline hno => ?line,
      fun j k address name name' hj hjk hlineJ hlineK => ?duplicate⟩ <;>
    refine loadState_persistenceFault (fun t ⟨hpc, hwf⟩ => ?_) s <;> rintro rfl
  case short =>
    rw [fileLines_length] at hshort
    omega
  case malformed =>
    obtain ⟨v, hv⟩ := fileLines_getElem?_integer t hk
    exact hno v (Int.natCast_nonneg v) hv
  case acc =>
    have hmax := toNat_le_archMaxVal t.acc
    cases hv
    omega
  case pc =>
    cases hv
    omega
  case cell =>
    obtain ⟨i, rfl⟩ := Nat.exists_eq_add_of_le hlo
    have hmax := toNat_le_archMaxVal (Memory.read t.mem i)
    cases (fileLines_getElem?_cell t (by omega)).symm.trans hv
    omega
  case line =>
    obtain ⟨b, hb, rfl⟩ := exists_breakpoint_of_fileLines hk hline
    have hlt := address_lt_memorySize hwf (List.mem_of_getElem? hb)
    exact hno b.address b.name (Int.natCast_nonneg _) (Int.ofNat_lt.mpr hlt) rfl
  case duplicate =>
    obtain ⟨b, hb, hlineJ⟩ := exists_breakpoint_of_fileLines hj hlineJ
    obtain ⟨b', hb', hlineK⟩ := exists_breakpoint_of_fileLines (hj.trans hjk.le) hlineK
    have hsame : b.address = b'.address := by
      cases hlineJ
      injection hlineK with haddress
      exact Int.ofNat.inj haddress
    exact address_ne_of_lt hwf (by omega) hb hb' hsame

/-- Settles O53: the reported fault has number 0, and the state is the model's failed load. -/
theorem failedLoadReportsZeroAndEmptiesTable : Obligations.FailedLoadReportsZeroAndEmptiesTable := by
  intro c s t file status hload hstatus
  have hinv := loadState_inv file s
  obtain ⟨image, -, hloaded⟩ | ⟨-, hfailed⟩ := loadState_cases file s
  · cases hloaded.symm.trans hload
    exact absurd rfl hstatus
  · rw [hfailed] at hinv
    cases hfailed.symm.trans hload
    exact ⟨persistenceFault_code, afterFailedLoad_breakpoints s, hinv.1, afterFailedLoad_draws s⟩

/-! ## The states a reset leaves -/

/-- A reset state is known by the three fields a reset sets: it is its own reset (R140). -/
theorem isResetState_iff (s : Engine c) : s.IsResetState ↔ s.pc = 0 ∧ s.acc = 0 ∧ s.totalCycles = 0 := by
  constructor
  · rintro ⟨before, rfl⟩
    exact ⟨reset_pc before, reset_acc before, reset_totalCycles before⟩
  · obtain ⟨acc, pc, mem, cycles, table, draws⟩ := s
    rintro ⟨rfl, rfl, rfl⟩
    exact ⟨⟨0, 0, mem, 0, table, draws⟩, rfl⟩

/-- A reset state with a well-formed table is a launch state: its program counter is 0 (R140, R142). -/
theorem launchState_of_isResetState {s : Engine c} (h : s.IsResetState) (htable : BreakpointsWf c s.breakpoints) :
    s.LaunchState := by
  obtain ⟨hpc, -, -⟩ := (isResetState_iff s).mp h
  exact ⟨by simpa [hpc] using memorySize_pos c, htable⟩

/-- A reset state whose first opcode cell, 8, is none of the tags taken. -/
def resetAtNoOpcode : State := { State.reset with mem := [(0, 8#8)] }

/-! ## The statements on the reset -/

/-- Settles O48: each field is one the reset sets or keeps. -/
theorem resetSetsRegistersAndKeepsMemory : Obligations.ResetSetsRegistersAndKeepsMemory :=
  fun _ s => ⟨reset_pc s, reset_acc s, reset_totalCycles s, reset_mem s, reset_breakpoints s⟩

/-- Settles O55: nothing is listed in memory or in the table. -/
theorem resetStateMeetsInvariant : Obligations.ResetStateMeetsInvariant :=
  have htable : BreakpointsWf Config.taken State.reset.breakpoints := breakpointsWf_nil Config.taken
  ⟨⟨⟨.nil, nofun⟩, htable⟩, launchState_of_isResetState ⟨State.reset.toEngine, rfl⟩ htable, rfl, rfl, rfl⟩

/-- Settles O49. The two reset states that part are the one with nothing in memory, which runs `ADD 0`, and the one whose cell 0
holds no tag. -/
theorem resetFixesPcAndAccOnly : Obligations.ResetFixesPcAndAccOnly := by
  have hreset : State.reset.toEngine.IsResetState := (isResetState_iff _).mpr ⟨rfl, rfl, rfl⟩
  have hnoOpcode : resetAtNoOpcode.toEngine.IsResetState := (isResetState_iff _).mpr ⟨rfl, rfl, rfl⟩
  have hretires : fetchDecode State.reset.toEngine = .ok (.add 0) := rfl
  have hfaults : fetchDecode resetAtNoOpcode.toEngine = .error (.decode 0 8) := rfl
  have hempty : BreakpointsWf Config.taken [] := breakpointsWf_nil Config.taken
  refine ⟨fun c => isResetState_iff, fun c m table => ?_, hreset, State.reset, resetAtNoOpcode, hreset, hnoOpcode,
    launchState_of_isResetState hreset hempty, launchState_of_isResetState hnoOpcode hempty, ?_, ?_⟩
  · exact ⟨⟨0, 0, m, 0, table, 0⟩, (isResetState_iff _).mpr ⟨rfl, rfl, rfl⟩, rfl, rfl⟩
  · exact ⟨⟨(execute (.add 0) State.reset.toEngine).countRetired⟩, (step_next_iff ..).mpr ⟨.add 0, hretires, rfl⟩⟩
  · exact ⟨.decode 0 8, (step_fault_iff ..).mpr hfaults⟩

/-- Settles O50: a load that succeeds and a reset leave launch states. -/
theorem launchClaimCoversLoadsAndResets : Obligations.LaunchClaimCoversLoadsAndResets := by
  intro c claim hclaim
  refine ⟨fun s t file htransact => ?load, fun s htable => hclaim _ ?reset⟩
  case load =>
    have hload : loadState file s = (.loaded, t) := by simpa [transact, Prod.ext_iff] using htransact
    obtain ⟨-, hvalid, -⟩ := loadState_eq_loaded_iff.mp hload
    exact hclaim t hvalid
  case reset => exact launchState_of_isResetState (isResetState_reset s) htable

/-! ## A valid state and a self-loop under steps -/

/-- With `A = W` every program counter is an address of the space (R17). -/
theorem toNat_lt_memorySize (h : c.addrBits = c.archBits) (x : c.Cell) : x.toNat < c.memorySize :=
  lt_of_lt_of_eq x.isLt (congrArg (2 ^ ·) h.symm)

/-- Settles O59: no program counter is out of range, and the table is the one before. -/
theorem retiredStepKeepsStateValid : Obligations.RetiredStepKeepsStateValid := by
  intro c hwidth s t hvalid hstep
  refine ⟨toNat_lt_memorySize hwidth t.pc, ?_⟩
  rw [blockStep_breakpoints hstep]
  exact hvalid.2

/-- A jump to itself retires with nothing changed (R148). -/
theorem blockStep_of_selfLoop {s : Engine c} (h : fetchDecode s = .ok (.jmp s.pc.toNat)) : blockStep s = .retired s := by
  have hsame : execute (.jmp s.pc.toNat) s = s := by simp [execute_jmp]
  exact (blockStep_retired_iff ..).mpr ⟨_, h, hsame.symm⟩

/-- Settles O13, by induction on the steps: the state after one is the same self-loop, counted. -/
theorem selfLoopOnlyCounts : Obligations.SelfLoopOnlyCounts := by
  intro c s n hloop hno
  induction n generalizing s with
  | zero => rfl
  | succ n ih =>
    rw [run_succ_of_no_breakpoint (blockStep_of_selfLoop hloop) hno, ih s.countRetired hloop hno,
      countRetired_totalCycles, Nat.add_right_comm, Nat.add_assoc]
    rfl

end Sys2Proof.Machine
end
